-- ==== Sys2Proof/Word.lean ====
section
/-! DEFINITION. The values of the machine and their plainest arithmetic (spec/00_scope.md rules R10 to R12). -/

namespace Sys2Proof

/-- A byte of the program buffer: what the decoder takes fields out of (R10, R11). -/
abbrev Byte := BitVec 8

/-! The value of a register or a memory cell is a `Nat`: "every register and memory value is an unsigned integer in
`[0, 2^W)`" (R12). `W` is a parameter of the machine, so the bound is an invariant of the state (`State.Inv`) and not
part of the type (log entry 1). -/

/-- `trunc_n(v) = v mod 2^n` (R12), on the numbers the machine computes with. -/
def trunc (n : Nat) (v : Nat) : Nat := v % 2 ^ n

end Sys2Proof
end

