-- ==== Sys2Proof/Config.lean ====
section
/-! DEFINITION. What an implementation of the core fixes: the sizes the source fixes (R7) and the three parameters
the source leaves open (R8). The spec leaves no value free (R106), so there is no opaque constant. -/

namespace Sys2Proof

/-- `RSV_POLICY` (R8, R72, D7): what the decoder does with a 1 in a bit the encoding marks "unused(0)". -/
inductive RsvPolicy where
  /-- The default: the instruction is refused with IllegalInstruction(ReservedBits). -/
  | trap
  /-- The reserved bits are not read. -/
  | ignore
  deriving DecidableEq, Repr

/-- The parameters of R8. They are plain data the state carries, so that a claim about every state is a claim about
every choice of them. -/
structure Config where
  /-- `W`: the width in bits of every register and every cell; the spec asks `W >= 25` (D1). -/
  W : Nat
  /-- `PROG_MAX`: the longest program in bytes the buffer holds (D10). -/
  progMax : Nat
  /-- `RSV_POLICY` (D7). -/
  rsvPolicy : RsvPolicy
  deriving DecidableEq, Repr

namespace Config

/-- `NREG`, the number of general registers (R7, R20). -/
abbrev nreg : Nat := 32

/-- `RAM_SIZE`, the number of data-memory cells (R7, R33). -/
abbrev ramSize : Nat := 1024

/-- The least register width the spec admits (R8, D1). -/
abbrev minW : Nat := 25

/-- `PC_BITS = ceil(log2(PROG_MAX + 1))`, the width of the program counter (R25, D10). -/
def pcBits (c : Config) : Nat := Nat.clog 2 (c.progMax + 1)

/-- The configuration `State.reset` takes: `W = 32` is the spec's reference value (R8, D1), `trap` its default (D7),
and `PROG_MAX = 65535` this model's choice (log entry 3; DESIGN CHOICE). -/
def reference : Config := { W := 32, progMax := 65535, rsvPolicy := .trap }

end Config

end Sys2Proof
end

