-- ==== Sys2Proof/Syntax.lean ====
section
/-! DEFINITION. The instructions: the closed set LOAD, READ, WRITE, ADD (R2, R60). -/

namespace Sys2Proof

/-- One constructor per row of spec/opcode_table.json, the fields named as the source names them (R14). A register
field names one of 32 registers and every value of it is legal (R67). A numeric field is an unsigned number (R66),
whose width `Instr.wellFormed` checks. -/
inductive Instr where
  /-- `LOAD const, Rreg` (R61, R121). -/
  | load (const : Nat) (reg : Fin 32)
  /-- `READ Rsrc_reg, offset, Rdst_reg` (R62, R124). -/
  | read (srcReg : Fin 32) (offset : Nat) (dstReg : Fin 32)
  /-- `WRITE Rsrc_reg, Rdst_reg` (R63, R130). -/
  | write (srcReg dstReg : Fin 32)
  /-- `ADD Rsrc_reg, addr, Raddr_reg` (R64, R141). -/
  | add (srcReg : Fin 32) (addr : Nat) (addrReg : Fin 32)
  deriving DecidableEq, Repr

end Sys2Proof
end

