-- ==== Sys2Proof/WellFormed.lean ====
section
/-! DEFINITION. Which instructions have an encoding of their own: every numeric field fits its declared width
(R7, R66). Register fields fit by their type. -/

namespace Sys2Proof

/-- `const` below `2^25`, `offset` below `2^7`, `addr` below `2^12` (R66). An `addr` of 1024 to 4095 is well formed:
it decodes, and faults at use (R50, R73). -/
def Instr.wellFormed : Instr → Bool
  | .load const _ => decide (const < 2 ^ 25)
  | .read _ offset _ => decide (offset < 2 ^ 7)
  | .write _ _ => true
  | .add _ addr _ => decide (addr < 2 ^ 12)

end Sys2Proof
end

