-- ==== Sys2Proof/Decode.lean ====
section
/-! DEFINITION. The decoder (R70 to R74), total on any bytes and rejecting by name; the encoder (R75, R76); the
decoding of a whole program buffer (R74, R81); and the opcode table's way of writing an instruction as one number. -/

namespace Sys2Proof

/-- Why a decode is refused: the sub-causes of IllegalInstruction (R71, R150). -/
inductive IllegalSub where
  /-- The opcode byte is none of 0x43, 0xC8, 0x50, 0xB2 (R78). -/
  | unknownOpcode
  /-- Fewer bytes remain than the format's length (R71). -/
  | truncated
  /-- A reserved bit is 1 and `RSV_POLICY = trap` (R72). -/
  | reservedBits
  deriving DecidableEq, Repr

/-- The opcode byte of each instruction (R60). -/
def Instr.opcode : Instr → Byte
  | .load _ _ => 0x43#8
  | .read _ _ _ => 0xC8#8
  | .write _ _ => 0x50#8
  | .add _ _ _ => 0xB2#8

/-- The length in bytes of each format (R60). -/
def Instr.length : Instr → Nat
  | .load _ _ => 5
  | .read _ _ _ => 4
  | .write _ _ => 3
  | .add _ _ _ => 4

/-- A 5-bit register field as a register number (R67). -/
def regOfField (f : BitVec 5) : Fin 32 := f.toFin

/-- The reserved-bits check of R71: the decoded instruction, or ReservedBits when a reserved bit is set under `trap`. -/
def acceptReserved (pol : RsvPolicy) {n : Nat} (rsv : BitVec n) (i : Instr) : Except IllegalSub Instr :=
  if pol = .trap ∧ rsv ≠ 0 then .error .reservedBits else .ok i

/-- LOAD's fields from `b1 .. b4` (R61): the only constant stored least significant byte first, with its top bit at
the bottom of `b4`. -/
def decodeLoad (pol : RsvPolicy) (b1 b2 b3 b4 : Byte) : Except IllegalSub Instr :=
  acceptReserved pol (b4.extractLsb' 6 2)
    (.load (b4.extractLsb' 0 1 ++ b3 ++ b2 ++ b1).toNat (regOfField (b4.extractLsb' 1 5)))

/-- READ's fields from `b1 .. b3` (R62). -/
def decodeRead (pol : RsvPolicy) (b1 b2 b3 : Byte) : Except IllegalSub Instr :=
  acceptReserved pol (b3.extractLsb' 0 7)
    (.read (regOfField (b1.extractLsb' 3 5)) (b1.extractLsb' 0 3 ++ b2.extractLsb' 4 4).toNat
      (regOfField (b2.extractLsb' 0 4 ++ b3.extractLsb' 7 1)))

/-- WRITE's fields from `b1, b2` (R63). -/
def decodeWrite (pol : RsvPolicy) (b1 b2 : Byte) : Except IllegalSub Instr :=
  acceptReserved pol (b2.extractLsb' 0 6)
    (.write (regOfField (b1.extractLsb' 3 5)) (regOfField (b1.extractLsb' 0 3 ++ b2.extractLsb' 6 2)))

/-- ADD's fields from `b1 .. b3` (R64). -/
def decodeAdd (pol : RsvPolicy) (b1 b2 b3 : Byte) : Except IllegalSub Instr :=
  acceptReserved pol (b3.extractLsb' 0 2)
    (.add (regOfField (b1.extractLsb' 3 5)) (b1.extractLsb' 0 3 ++ b2 ++ b3.extractLsb' 7 1).toNat
      (regOfField (b3.extractLsb' 2 5)))

/-- `Decode(prog, L, pc)` (R71), on the bytes that remain at `pc`: the opcode is checked first, then the length, then
the reserved bits (D18). R70 requires a byte at `pc`; on no bytes at all the answer is Truncated (log entry 12). -/
def decode (pol : RsvPolicy) (bytes : List Byte) : Except IllegalSub Instr :=
  match bytes with
  | [] => .error .truncated
  | op :: rest =>
    if op = 0x43#8 then
      match rest with
      | b1 :: b2 :: b3 :: b4 :: _ => decodeLoad pol b1 b2 b3 b4
      | _ => .error .truncated
    else if op = 0xC8#8 then
      match rest with
      | b1 :: b2 :: b3 :: _ => decodeRead pol b1 b2 b3
      | _ => .error .truncated
    else if op = 0x50#8 then
      match rest with
      | b1 :: b2 :: _ => decodeWrite pol b1 b2
      | _ => .error .truncated
    else if op = 0xB2#8 then
      match rest with
      | b1 :: b2 :: b3 :: _ => decodeAdd pol b1 b2 b3
      | _ => .error .truncated
    else .error .unknownOpcode

/-! ### The encoder (R75): each field is masked to its width, a negative one by two's complement (R76) -/

/-- The bytes of a 32-bit instruction word, most significant first (R11). -/
def bytesOfWord32 (w : BitVec 32) : List Byte :=
  [w.extractLsb' 24 8, w.extractLsb' 16 8, w.extractLsb' 8 8, w.extractLsb' 0 8]

/-- The bytes of a 24-bit instruction word, most significant first (R11). -/
def bytesOfWord24 (w : BitVec 24) : List Byte :=
  [w.extractLsb' 16 8, w.extractLsb' 8 8, w.extractLsb' 0 8]

/-- `Encode(LOAD, const, reg)` (R75). -/
def encodeLoad (const reg : Int) : List Byte :=
  let c := BitVec.ofInt 25 const
  let r := BitVec.ofInt 5 reg
  [0x43#8, c.extractLsb' 0 8, c.extractLsb' 8 8, c.extractLsb' 16 8, 0#2 ++ r ++ c.extractLsb' 24 1]

/-- `Encode(READ, src_reg, offset, dst_reg)` (R75). -/
def encodeRead (srcReg offset dstReg : Int) : List Byte :=
  bytesOfWord32 (0xC8#8 ++ BitVec.ofInt 5 srcReg ++ BitVec.ofInt 7 offset ++ BitVec.ofInt 5 dstReg ++ 0#7)

/-- `Encode(WRITE, src_reg, dst_reg)` (R75). -/
def encodeWrite (srcReg dstReg : Int) : List Byte :=
  bytesOfWord24 (0x50#8 ++ BitVec.ofInt 5 srcReg ++ BitVec.ofInt 5 dstReg ++ 0#6)

/-- `Encode(ADD, src_reg, addr, addr_reg)` (R75). -/
def encodeAdd (srcReg addr addrReg : Int) : List Byte :=
  bytesOfWord32 (0xB2#8 ++ BitVec.ofInt 5 srcReg ++ BitVec.ofInt 12 addr ++ BitVec.ofInt 5 addrReg ++ 0#2)

/-- The bytes of an instruction (R75). -/
def encode : Instr → List Byte
  | .load const reg => encodeLoad const reg.val
  | .read srcReg offset dstReg => encodeRead srcReg.val offset dstReg.val
  | .write srcReg dstReg => encodeWrite srcReg.val dstReg.val
  | .add srcReg addr addrReg => encodeAdd srcReg.val addr addrReg.val

/-- `encode_all(instructions) -> bytes`: the instructions' bytes one after the other (R96). -/
def encodeAll (is : List Instr) : List Byte := is.flatMap encode

/-! ### Decoding a whole program buffer from offset 0 (R74, R81) -/

/-- The instructions of a byte list, decoded one after the other and each stepping by its own length, or the first
refusal. `fuel` bounds the recursion: as many steps as there are bytes are always enough (R80: a length is 3 at least),
so the clause for no fuel is not reached from `decodeProgram`. -/
def decodeAll (pol : RsvPolicy) : (fuel : Nat) → List Byte → Except IllegalSub (List Instr)
  | _, [] => .ok []
  | 0, _ :: _ => .error .truncated
  | fuel + 1, b :: bs =>
    match decode pol (b :: bs) with
    | .error e => .error e
    | .ok i =>
      match decodeAll pol fuel ((b :: bs).drop i.length) with
      | .error e => .error e
      | .ok is => .ok (i :: is)

/-- The instructions of a program buffer, found by decoding from offset 0 (R74). -/
def decodeProgram (pol : RsvPolicy) (prog : List Byte) : Except IllegalSub (List Instr) :=
  decodeAll pol prog.length prog

/-- A well-formed program buffer (R81): decoding from offset 0 accepts every instruction and lands exactly on `L`. -/
def programWellFormed (pol : RsvPolicy) (prog : List Byte) : Bool :=
  match decodeProgram pol prog with
  | .ok _ => true
  | .error _ => false

/-! ### The opcode table's numbering -/

/-- `n` bytes of the number `w`, most significant first (R11). -/
def bytesOfNat : (n : Nat) → (w : Nat) → List Byte
  | 0, _ => []
  | n + 1, w => BitVec.ofNat 8 (w / 2 ^ (8 * n)) :: bytesOfNat n w

/-- An instruction the table numbers as the `nbits`-bit word `I` (R11: `b0` holds the highest bits), laid out in
buffer order, and zeros after it up to the longest instruction's 5 bytes (log entry 11). -/
def tableBytes (nbits w : Nat) : List Byte :=
  let bytes := bytesOfNat ((nbits + 7) / 8) w
  bytes ++ List.replicate (5 - bytes.length) 0#8

/-- The instruction the decoder reads from a word of spec/opcode_table.json, under the default `RSV_POLICY = trap`. -/
def decodeTableWord (nbits w : Nat) : Option Instr :=
  match decode .trap (tableBytes nbits w) with
  | .ok i => some i
  | .error _ => none

end Sys2Proof
end

