-- ==== Sys2Proof/Machine/State.lean ====
section
/-! DEFINITION. The state of the machine (spec/10_state.md), its reset (R37, R180), and the reasons a step can stop. -/

namespace Sys2Proof.Machine

/-- The run state (R27). Code 3 of R28 never occurs and is not representable (log entry 10). -/
inductive RunState where
  | running
  | halted
  | faulted
  deriving DecidableEq, Repr

/-- The kind of error in the fault record (R28, R150). -/
inductive Cause where
  | none
  | illegalInstruction
  | memoryFault
  deriving DecidableEq, Repr

/-- The data memory `ram` as a list of (cell index, value) pairs in one canonical form, `Memory.wf`. A cell, not a
byte, is the unit of every access (R40, R43, R45; log entry 4). -/
abbrev Memory := List (Nat × Nat)

/-- What a cell that no entry lists holds: 0, the reset value of every cell (R33, R52). -/
def Memory.unlisted : Nat := 0

/-- The canonical form: indices strictly rising, and no entry equal to what an unlisted cell holds. -/
abbrev Memory.wf (m : Memory) : Prop :=
  m.Pairwise (fun c d => c.1 < d.1) ∧ ∀ c ∈ m, c.2 ≠ Memory.unlisted

/-- The part of the state a trace event records: `(x, ram, pc)` (R111). -/
structure Snapshot where
  x : Vector Nat 32
  ram : Memory
  pc : Nat
  deriving DecidableEq, Repr

/-- One event of the trace port (R111): the decoded instruction, the state before it, and the state after it with the
pc advanced. -/
structure TraceEvent where
  instr : Instr
  pre : Snapshot
  post : Snapshot
  deriving DecidableEq, Repr

/-- Everything the spec gives the machine (R20 to R37), and the parameters it is built with (R8). -/
structure State where
  /-- The parameters `W`, `PROG_MAX`, `RSV_POLICY` (R8): fixed for the machine, written by no step. -/
  cfg : Config
  /-- The register file `x[0] .. x[31]` (R20). -/
  x : Vector Nat 32
  /-- The data memory (R33). -/
  ram : Memory
  /-- The program counter, a byte offset into `prog` (R25). -/
  pc : Nat
  /-- The run state (R27). -/
  run : RunState
  /-- `cause` of the fault record (R28). -/
  cause : Cause
  /-- `sub` of the fault record, 2 bits (R28, R150). -/
  sub : BitVec 2
  /-- `fault_pc` of the fault record (R28, R152). -/
  faultPc : Nat
  /-- `fault_addr` of the fault record, `W + 1` bits (R28, R152). -/
  faultAddr : Nat
  /-- The program buffer, `L = prog.length` bytes, read-only during a run (R34). -/
  prog : List Byte
  /-- The events the trace port has emitted in this run, the latest first (R111; log entry 8). -/
  trace : List TraceEvent
  deriving DecidableEq, Repr

/-- The state a run starts from (R37, R180, R181): everything 0 and Running, with the parameters and the program the
host has set, which reset does not change (R182). -/
def State.resetWith (cfg : Config) (prog : List Byte) : State where
  cfg := cfg
  x := Vector.replicate 32 0
  ram := []
  pc := 0
  run := .running
  cause := .none
  sub := 0#2
  faultPc := 0
  faultAddr := 0
  prog := prog
  trace := []

/-- The machine right after reset, before the host has placed a program: the reference parameters and the empty
program (log entries 2, 3, 9). -/
def State.reset : State := State.resetWith Config.reference []

/-- Why a step stops with no next state. The spec's two exceptions are NOT here: they enter the Faulted state, a next
state (R151). -/
inductive Fault where
  /-- Raised by `step` in the run state Halted: "no step is enabled" (R100). Safe: the model goes no further than the
  hardware does. -/
  | stuckHalted
  /-- Raised by `step` in the run state Faulted: "no step is enabled", "execution cannot resume" (R100, R157). Safe. -/
  | stuckFaulted
  /-- Raised by `step` while Running with `pc > L`, which no run reaches (R102) and for which the spec gives no effect
  (log entry 6). Safe: it stops where the spec says nothing. -/
  | pcOutsideProgram
  deriving DecidableEq, Repr

/-- Why the model gives a state or an instruction no meaning. -/
inductive Refusal where
  /-- An instruction of the opcode table that has no meaning yet, by its mnemonic; raised by no arm of `exec`. Safe. -/
  | notModelled (mnemonic : String)
  /-- Raised by `step` when `W < 25`: "a model instantiated with a smaller W is outside this spec" (D1). Safe. -/
  | widthBelowMinimum
  /-- Raised by `step` when the host offers a program longer than `PROG_MAX`, which "gets no run (refused)" (D10).
  Safe. -/
  | programTooLong
  deriving DecidableEq, Repr

end Sys2Proof.Machine
end

