-- ==== Sys2Proof/Machine/Ops.lean ====
section
/-! DEFINITION. The named operations over registers, data memory and the run status (R13); taking an exception as one
shared operation (R151). There is no return from an exception: "No instruction returns from an exception, and Faulted
is terminal" (R157). -/

namespace Sys2Proof.Machine

/-- What a step or a meaning answers. -/
abbrev Result := Host.Outcome State Fault Refusal

/-! ### Registers (R20, R21: none is hard-wired, aliased or banked) -/

/-- `x[i]` (R13). -/
def State.readReg (s : State) (i : Fin 32) : Nat := s.x[i]

/-- `x[i] <- v` (R13). -/
def State.writeReg (s : State) (i : Fin 32) (v : Nat) : State := { s with x := s.x.set i v }

/-! ### Data memory (R13, R45: one whole cell an access) -/

/-- The value of cell `a`. -/
def Memory.read : Memory → Nat → Nat
  | [], _ => Memory.unlisted
  | (b, w) :: m, a => if a = b then w else Memory.read m a

/-- Cell `a` set to `v`, in the canonical form: a cell that holds what an unlisted cell holds is not listed. -/
def Memory.write : Memory → Nat → Nat → Memory
  | [], a, v => if v = Memory.unlisted then [] else [(a, v)]
  | (b, w) :: m, a, v =>
    if a < b then
      if v = Memory.unlisted then (b, w) :: m else (a, v) :: (b, w) :: m
    else if a = b then
      if v = Memory.unlisted then m else (a, v) :: m
    else (b, w) :: Memory.write m a v

/-- `MemRead(a, 1)` (R13). Every caller has checked the bounds of `a` (R50). -/
def State.readMem (s : State) (a : Nat) : Nat := s.ram.read a

/-- `MemWrite(a, 1, v)` (R13). Every caller has checked the bounds of `a` (R50). -/
def State.writeMem (s : State) (a : Nat) (v : Nat) : State := { s with ram := s.ram.write a v }

/-! ### The two exceptions (R150) and fault entry (R151) -/

/-- The sub-causes of MemoryFault (R150). -/
inductive MemSub where
  | read
  | write
  | addRead
  | addWrite
  deriving DecidableEq, Repr

/-- An exception the core raises (R150): IllegalInstruction(sub), or MemoryFault(sub, a) with the refused address. -/
inductive Exception where
  | illegalInstruction (sub : IllegalSub)
  | memoryFault (sub : MemSub) (a : Nat)
  deriving DecidableEq, Repr

/-- The 2-bit code of the run state (R28). -/
def runCode : RunState → BitVec 2
  | .running => 0#2
  | .halted => 1#2
  | .faulted => 2#2

/-- The 2-bit code of a cause (R28). -/
def causeCode : Cause → BitVec 2
  | .none => 0#2
  | .illegalInstruction => 1#2
  | .memoryFault => 2#2

/-- `sub` of IllegalInstruction (R150). -/
def illegalSubCode : IllegalSub → BitVec 2
  | .unknownOpcode => 0#2
  | .truncated => 1#2
  | .reservedBits => 2#2

/-- `sub` of MemoryFault (R150). -/
def memSubCode : MemSub → BitVec 2
  | .read => 0#2
  | .write => 1#2
  | .addRead => 2#2
  | .addWrite => 3#2

/-- The cause an exception records. -/
def exceptionCause : Exception → Cause
  | .illegalInstruction _ => .illegalInstruction
  | .memoryFault _ _ => .memoryFault

/-- The sub-cause an exception records. -/
def exceptionSub : Exception → BitVec 2
  | .illegalInstruction sub => illegalSubCode sub
  | .memoryFault sub _ => memSubCode sub

/-- The address an exception records: the refused one for MemoryFault, 0 for IllegalInstruction. -/
def exceptionAddr : Exception → Nat
  | .illegalInstruction _ => 0
  | .memoryFault _ a => a

/-- Fault entry (R151): the run state and the fault record are written, and nothing else changes: no register, no
cell, not `pc`. Control goes nowhere; there is no handler and no vector. -/
def State.raise (s : State) (e : Exception) : State :=
  { s with run := .faulted, cause := exceptionCause e, sub := exceptionSub e, faultPc := s.pc,
           faultAddr := exceptionAddr e }

/-! ### The sequencer's own moves (R101) -/

/-- The normal halt: `run <- Halted`, and no instruction executes (R101, R103). -/
def State.halt (s : State) : State := { s with run := .halted }

/-- The part of the state the trace port shows (R111). -/
def State.snapshot (s : State) : Snapshot := { x := s.x, ram := s.ram, pc := s.pc }

/-- `pc <- pc + len` (R101). -/
def State.advance (s : State) (len : Nat) : State := { s with pc := s.pc + len }

/-- The trace port emits one event (R111). -/
def State.emit (s : State) (ev : TraceEvent) : State := { s with trace := ev :: s.trace }

/-- What R101 does once `Execute` has gone from `pre` to `t`: when it completed, the pc is advanced and the event
emitted; when it raised, "the rest of the step does not happen". -/
def State.retire (pre : State) (i : Instr) (t : State) : State :=
  match t.run with
  | .running =>
    let post := t.advance i.length
    post.emit { instr := i, pre := pre.snapshot, post := post.snapshot }
  | .halted => t
  | .faulted => t

/-! ### The host's moves between runs (R110, R182, R183) -/

/-- Reset: a fresh machine with the parameters and the program buffer kept (R180, R182). -/
def State.applyReset (s : State) : State := State.resetWith s.cfg s.prog

/-- The buffer with `bytes` stored at offset `at_`, zeros filling up to it where it lies past the end. -/
def placeBytes (prog : List Byte) (at_ : Nat) (bytes : List Byte) : List Byte :=
  prog.take at_ ++ List.replicate (at_ - prog.length) 0#8 ++ bytes ++ prog.drop (at_ + bytes.length)

/-- The state with `bytes` standing where the next step fetches, and ready to fetch there: Running, the fault record
clear (R29). -/
def State.placeFetch (s : State) (bytes : List Byte) : State :=
  { s with prog := placeBytes s.prog s.pc bytes, run := .running, cause := .none, sub := 0#2, faultPc := 0,
           faultAddr := 0 }

end Sys2Proof.Machine
end

