-- ==== Sys2Proof/Machine/Operands.lean ====
section
/-! DEFINITION. The operand forms (R68): the memory address computer (R107) and the bounds checker (R108). -/

namespace Sys2Proof.Machine

/-- `zext_n(v)` (R12): the number itself when it fits in `n` bits, as R12 requires. A field that does not fit, which
no decode gives, is reduced (log entry 14). -/
def zext (n : Nat) (v : Nat) : Nat := trunc n v

/-- READ's address `x[src_reg] + zext(offset)`, the exact sum, never reduced mod `2^W` (R107, D4). -/
def readAddress (s : State) (srcReg : Fin 32) (offset : Nat) : Nat := s.readReg srcReg + offset

/-- WRITE's address `x[dst_reg]` (R107). -/
def writeAddress (s : State) (dstReg : Fin 32) : Nat := s.readReg dstReg

/-- ADD's read address `x[addr_reg]` (R107). -/
def addReadAddress (s : State) (addrReg : Fin 32) : Nat := s.readReg addrReg

/-- ADD's write address `zext(addr)` (R107). -/
def addWriteAddress (addr : Nat) : Nat := addr

/-- `InBounds(a) = (a < 1024)`, on the full width of `a` (R50, R108). -/
def inBounds (a : Nat) : Bool := decide (a < Config.ramSize)

/-- The bounds check before an access (R50): go on with `k`, or raise MemoryFault(sub, a) with the refused address. -/
def boundsChecked (sub : MemSub) (a : Nat) (s : State) (k : Result) : Result :=
  if inBounds a then k else .next (s.raise (.memoryFault sub a))

end Sys2Proof.Machine
end

