-- ==== Sys2Proof/Machine/Flags.lean ====
section
/-! DEFINITION. The ALU (R109). It produces no flags: "The core has no flags, condition codes or predicates" (R30), so
its one operation is all this file holds. -/

namespace Sys2Proof.Machine

/-- The add of ADD: `(a + b) mod 2^W`, the carry out discarded (R109, R143, D3). -/
def aluAdd (cfg : Config) (a b : Nat) : Nat := trunc cfg.W (a + b)

end Sys2Proof.Machine
end

