-- ==== Sys2Proof/Machine/Arithmetic.lean ====
section
/-! DEFINITION. ADD (spec/42_arithmetic.md), the only arithmetic instruction (R140). -/

namespace Sys2Proof.Machine

/-- ADD (R141): the read address is checked first, then the immediate write address (D5, D6); both reads precede the
write (R186). -/
def execAdd (srcReg : Fin 32) (addr : Nat) (addrReg : Fin 32) (s : State) : Result :=
  boundsChecked .addRead (addReadAddress s addrReg) s
    (boundsChecked .addWrite (addWriteAddress addr) s
      (.next (s.writeMem (addWriteAddress addr)
        (aluAdd s.cfg (s.readReg srcReg) (s.readMem (addReadAddress s addrReg))))))

end Sys2Proof.Machine
end

