-- ==== Sys2Proof/Machine/DataMovement.lean ====
section
/-! DEFINITION. LOAD, READ, WRITE (spec/41_data_movement.md): the `Execute` arm of R101. The pc advance is the
sequencer's (`State.retire`). -/

namespace Sys2Proof.Machine

/-- LOAD (R121): `x[reg] <- zext_W(const)`. No exception at execution. -/
def execLoad (const : Nat) (reg : Fin 32) (s : State) : Result :=
  .next (s.writeReg reg (zext s.cfg.W const))

/-- READ (R124): the address is formed from the old `x[src_reg]` before `x[dst_reg]` is written (R186). -/
def execRead (srcReg : Fin 32) (offset : Nat) (dstReg : Fin 32) (s : State) : Result :=
  boundsChecked .read (readAddress s srcReg offset) s
    (.next (s.writeReg dstReg (s.readMem (readAddress s srcReg offset))))

/-- WRITE (R130): `dst_reg` holds the address, `src_reg` the data (R131). -/
def execWrite (srcReg dstReg : Fin 32) (s : State) : Result :=
  boundsChecked .write (writeAddress s dstReg) s
    (.next (s.writeMem (writeAddress s dstReg) (s.readReg srcReg)))

end Sys2Proof.Machine
end

