-- ==== Sys2Proof/Machine/Dispatch.lean ====
section
/-! DEFINITION. `Execute(fmt, fields)` of R101: one arm per instruction, each the call of its meaning. -/

namespace Sys2Proof.Machine

def exec (i : Instr) (s : State) : Host.Outcome State Fault Refusal :=
  match i with
  | .load const reg => Sys2Proof.Machine.execLoad const reg s
  | .read srcReg offset dstReg => Sys2Proof.Machine.execRead srcReg offset dstReg s
  | .write srcReg dstReg => Sys2Proof.Machine.execWrite srcReg dstReg s
  | .add srcReg addr addrReg => Sys2Proof.Machine.execAdd srcReg addr addrReg s

end Sys2Proof.Machine
end

