-- ==== Sys2Proof/Machine/Sequencer.lean ====
section
/-! DEFINITION. What the sequencer does in one step while Running (R101): fetch, decode, execute, retire. -/

namespace Sys2Proof.Machine

/-- What one step does while Running (R101): halt at `pc = L`, else decode at `pc`, execute, and retire. An illegal
instruction and a memory fault enter the Faulted state (R151). -/
def stepRunning (s : State) : Host.Outcome State Fault Refusal :=
  if s.pc = s.prog.length then .next s.halt
  else if s.prog.length < s.pc then .fault .pcOutsideProgram
  else
    match decode s.cfg.rsvPolicy (s.prog.drop s.pc) with
    | .error e => .next (s.raise (.illegalInstruction e))
    | .ok i =>
      match exec i s with
      | .next t => .next (s.retire i t)
      | .fault r => .fault r
      | .refused r => .refused r

end Sys2Proof.Machine
end

