-- ==== Sys2Proof/Machine/Step.lean ====
section
/-! DEFINITION. One step of the machine (R100, R101) and how a word of the opcode table is placed where it fetches. -/

namespace Sys2Proof.Machine

/-- One step. It is enabled only while Running (R100); parameters outside the spec and a program that does not fit get
no run (D1, D10). -/
def step (s : State) : Host.Outcome State Fault Refusal :=
  if s.cfg.W < Config.minW then .refused .widthBelowMinimum
  else if s.cfg.progMax < s.prog.length then .refused .programTooLong
  else
    match s.run with
    | .running => stepRunning s
    | .halted => .fault .stuckHalted
    | .faulted => .fault .stuckFaulted

/-- `s` with the table's word stored at `pc` in the program buffer, Running, so that the next step runs exactly it. The
machine never writes its buffer; the host loads a program from outside (R110, R183), and this stands for that load
(log entry 9). -/
def State.withFetchWord (s : State) (nbits w : Nat) : State := s.placeFetch (tableBytes nbits w)

end Sys2Proof.Machine
end

