-- ==== Sys2Proof/Machine/Assembler.lean ====
section
/-! DEFINITION. The assembler's textual syntax (spec/30_encoding.md section 7, rules R90 to R98): outside the hardware,
in the spec's scope (R5). Text is a list of characters. -/

namespace Sys2Proof.Machine

/-- An instruction as the assembler makes it: its numeric operands are whole numbers of any size, masked only when
encoded (R94, R96). -/
inductive AsmInstr where
  | load (const : Int) (reg : Fin 32)
  | read (srcReg : Fin 32) (offset : Int) (dstReg : Fin 32)
  | write (srcReg dstReg : Fin 32)
  | add (srcReg : Fin 32) (addr : Int) (addrReg : Fin 32)
  deriving DecidableEq, Repr

/-- The kinds of assembly error (R95); InvalidOperand says which operand is the bad one (R98). -/
inductive AsmErrorKind where
  | unknownMnemonic
  | arityError
  | invalidOperand (token : List Char)
  deriving DecidableEq, Repr

/-- An error carries the source line number (R95), the first line being 1 (log entry 13). -/
structure AsmError where
  line : Nat
  kind : AsmErrorKind
  deriving DecidableEq, Repr

/-- The encoder applied to an assembled instruction (R75, R96). -/
def encodeAsm : AsmInstr → List Byte
  | .load const reg => encodeLoad const reg.val
  | .read srcReg offset dstReg => encodeRead srcReg.val offset dstReg.val
  | .write srcReg dstReg => encodeWrite srcReg.val dstReg.val
  | .add srcReg addr addrReg => encodeAdd srcReg.val addr addrReg.val

/-- The instruction the machine decodes from an assembled one: each numeric operand reduced `mod 2^n` to its field
(R76, R94). -/
def asmToInstr : AsmInstr → Instr
  | .load const reg => .load (const % 2 ^ 25).toNat reg
  | .read srcReg offset dstReg => .read srcReg (offset % 2 ^ 7).toNat dstReg
  | .write srcReg dstReg => .write srcReg dstReg
  | .add srcReg addr addrReg => .add srcReg (addr % 2 ^ 12).toNat addrReg

/-! ### Tokens (R92, R93) -/

/-- The number a run of decimal digits stands for, after `acc`; none when a character is no digit. -/
def digitsValue : List Char → (acc : Nat) → Option Nat
  | [], acc => some acc
  | c :: cs, acc => if c.isDigit then digitsValue cs (10 * acc + (c.toNat - '0'.toNat)) else none

/-- One or more decimal digits; leading zeros are digits (R92). -/
def parseDigits : List Char → Option Nat
  | [] => none
  | c :: cs => digitsValue (c :: cs) 0

/-- A numeric token (R93): an optional `-` or `+`, then one or more decimal digits. -/
def parseInteger : List Char → Option Int
  | '-' :: ds => (parseDigits ds).map fun n : Nat => -(n : Int)
  | '+' :: ds => (parseDigits ds).map fun n : Nat => (n : Int)
  | ds => (parseDigits ds).map fun n : Nat => (n : Int)

/-- A register token (R92): `R` or `r`, then decimal digits of a number in `[0, 31]`. -/
def parseRegister : List Char → Option (Fin 32)
  | [] => none
  | c :: ds =>
    if c = 'R' ∨ c = 'r' then
      match parseDigits ds with
      | some n => if h : n < 32 then some ⟨n, h⟩ else none
      | none => none
    else none

/-- A register operand, or InvalidOperand (R92). -/
def registerOperand (token : List Char) : Except AsmErrorKind (Fin 32) :=
  match parseRegister token with
  | some r => .ok r
  | none => .error (.invalidOperand token)

/-- A numeric operand, or InvalidOperand (R93). -/
def integerOperand (token : List Char) : Except AsmErrorKind Int :=
  match parseInteger token with
  | some n => .ok n
  | none => .error (.invalidOperand token)

/-! ### One instruction (R91, R98): mnemonic, then operand count, then operands left to right -/

def mnemonicLoad : List Char := ['L', 'O', 'A', 'D']
def mnemonicRead : List Char := ['R', 'E', 'A', 'D']
def mnemonicWrite : List Char := ['W', 'R', 'I', 'T', 'E']
def mnemonicAdd : List Char := ['A', 'D', 'D']

/-- `LOAD const, Rreg`. -/
def assembleLoad : List (List Char) → Except AsmErrorKind AsmInstr
  | [const, reg] => do
    let c ← integerOperand const
    let r ← registerOperand reg
    return .load c r
  | _ => .error .arityError

/-- `READ Rsrc_reg, offset, Rdst_reg`. -/
def assembleRead : List (List Char) → Except AsmErrorKind AsmInstr
  | [srcReg, offset, dstReg] => do
    let s ← registerOperand srcReg
    let o ← integerOperand offset
    let d ← registerOperand dstReg
    return .read s o d
  | _ => .error .arityError

/-- `WRITE Rsrc_reg, Rdst_reg`. -/
def assembleWrite : List (List Char) → Except AsmErrorKind AsmInstr
  | [srcReg, dstReg] => do
    let s ← registerOperand srcReg
    let d ← registerOperand dstReg
    return .write s d
  | _ => .error .arityError

/-- `ADD Rsrc_reg, addr, Raddr_reg` (D15). -/
def assembleAdd : List (List Char) → Except AsmErrorKind AsmInstr
  | [srcReg, addr, addrReg] => do
    let s ← registerOperand srcReg
    let a ← integerOperand addr
    let r ← registerOperand addrReg
    return .add s a r
  | _ => .error .arityError

/-- `assemble(mnemonic, operands) -> Instruction | Error` (R96), its checks in the order of R98. -/
def assemble (mnemonic : List Char) (operands : List (List Char)) : Except AsmErrorKind AsmInstr :=
  if mnemonic = mnemonicLoad then assembleLoad operands
  else if mnemonic = mnemonicRead then assembleRead operands
  else if mnemonic = mnemonicWrite then assembleWrite operands
  else if mnemonic = mnemonicAdd then assembleAdd operands
  else .error .unknownMnemonic

/-! ### Lines and programs (R90, R96) -/

/-- A text without the white space at its two ends (D14). -/
def trimSpace (cs : List Char) : List Char :=
  ((cs.dropWhile Char.isWhitespace).reverse.dropWhile Char.isWhitespace).reverse

/-- The pieces of a text between its separators: always one more than there are separators. -/
def splitAtChar (sep : Char) : List Char → List (List Char)
  | [] => [[]]
  | c :: cs =>
    if c = sep then [] :: splitAtChar sep cs
    else
      match splitAtChar sep cs with
      | [] => [[c]]
      | piece :: pieces => (c :: piece) :: pieces

/-- The operands after a mnemonic: separated by commas, each trimmed (R90, D14). DESIGN CHOICE (log entry 13): nothing
after the mnemonic is no operand; an empty piece beside a comma is an operand, the empty text. -/
def splitOperands (cs : List Char) : List (List Char) :=
  match trimSpace cs with
  | [] => []
  | c :: rest => (splitAtChar ',' (c :: rest)).map trimSpace

/-- One source line (R90): the comment dropped; no instruction when nothing is left; else a mnemonic, white space and
the operands. DESIGN CHOICE (log entry 13): white space before the mnemonic is dropped, a line of nothing but white space
is a blank one, and the mnemonic ends at the first white space. -/
def assembleLine (line : List Char) : Except AsmErrorKind (Option AsmInstr) :=
  match trimSpace (line.takeWhile (· != ';')) with
  | [] => .ok none
  | c :: rest =>
    match assemble ((c :: rest).takeWhile (! ·.isWhitespace)) (splitOperands ((c :: rest).dropWhile (! ·.isWhitespace))) with
    | .ok i => .ok (some i)
    | .error k => .error k

/-- The instructions of a list of lines, the first of them numbered `n`; the first error aborts (R96). -/
def assembleLines : (n : Nat) → List (List Char) → Except AsmError (List AsmInstr)
  | _, [] => .ok []
  | n, line :: lines =>
    match assembleLine line with
    | .error k => .error { line := n, kind := k }
    | .ok oi =>
      match assembleLines (n + 1) lines with
      | .error e => .error e
      | .ok is => .ok (oi.toList ++ is)

/-- The instructions of a source text (R90, R96). -/
def assembleProgram (text : List Char) : Except AsmError (List AsmInstr) :=
  assembleLines 1 (splitAtChar '\n' text)

/-- The bytes of a source text: each instruction's bytes concatenated in source line order, or the first error and no
bytes at all (R96). -/
def assembleBytes (text : List Char) : Except AsmError (List Byte) :=
  match assembleProgram text with
  | .ok is => .ok (is.flatMap encodeAsm)
  | .error e => .error e

end Sys2Proof.Machine
end

