-- ==== Sys2Proof/Machine/Execute.lean ====
section
/-! DEFINITION. The host's whole interface (R110): one call `execute(program)`, a run from reset to its end (R113). -/

namespace Sys2Proof.Machine

/-- Steps until the run has ended, or until `fuel` steps are done. The end is the first state that is not Running
(R113); the host has no move in between. -/
def runToEnd : (fuel : Nat) → State → Host.Outcome State Fault Refusal
  | 0, s => .next s
  | fuel + 1, s =>
    match s.run with
    | .halted => .next s
    | .faulted => .next s
    | .running =>
      match step s with
      | .next t => runToEnd fuel t
      | .fault r => .fault r
      | .refused r => .refused r

/-- `execute(program)` (R110): the final state of the run of `prog` from reset. `floor(L / 3)` instructions and one
step more, that halts or faults, are always enough (R105). -/
def execute (cfg : Config) (prog : List Byte) : Host.Outcome State Fault Refusal :=
  runToEnd (prog.length / 3 + 1) (State.resetWith cfg prog)

end Sys2Proof.Machine
end

