-- ==== Sys2Proof/Safety.lean ====
section
/-! DEFINITION. What a good state and a good run are, in the terms claims use. -/

namespace Sys2Proof.Machine

/-- A step is enabled (R100), the parameters are the spec's (D1) and the program fits the buffer (D10). -/
structure State.Enabled (s : State) : Prop where
  minW : 25 ≤ s.cfg.W
  progFits : s.prog.length ≤ s.cfg.progMax
  running : s.run = .running

/-- The invariant of the machine: what every state of a run satisfies. -/
structure State.Inv (s : State) : Prop where
  /-- `W >= 25` (R8). -/
  minW : 25 ≤ s.cfg.W
  /-- `L <= PROG_MAX` (R34). -/
  progFits : s.prog.length ≤ s.cfg.progMax
  /-- Every register value is below `2^W` (R12, R24). -/
  regBound : ∀ i : Fin 32, s.readReg i < 2 ^ s.cfg.W
  /-- The memory is in its canonical form. -/
  ramWf : s.ram.wf
  /-- No cell at or past 1024 is listed (R33, R49). -/
  ramIndex : ∀ c ∈ s.ram, c.1 < 1024
  /-- Every cell value is below `2^W` (R41). -/
  ramBound : ∀ c ∈ s.ram, c.2 < 2 ^ s.cfg.W
  /-- `pc` stays in `[0, L]` (R25, R102). -/
  pcBound : s.pc ≤ s.prog.length
  /-- `Halted` only at `pc = L` (R25, R103). -/
  haltedAtEnd : s.run = .halted → s.pc = s.prog.length
  /-- While Running or Halted the fault record is 0 (R29). -/
  recordClear : s.run ≠ .faulted → s.cause = .none ∧ s.sub = 0#2 ∧ s.faultPc = 0 ∧ s.faultAddr = 0
  /-- Faulted implies a cause, and `pc = fault_pc` at an opcode byte inside the buffer (R29, R153). -/
  recordSet : s.run = .faulted → s.cause ≠ .none ∧ s.faultPc = s.pc ∧ s.pc < s.prog.length
  /-- IllegalInstruction has three sub-causes and records no address (R28, R150). -/
  recordIllegal : s.cause = .illegalInstruction → s.sub ≠ 3#2 ∧ s.faultAddr = 0
  /-- MemoryFault records an address outside the memory, which fits `W + 1` bits (R28, R152). -/
  recordMemory : s.cause = .memoryFault → 1024 ≤ s.faultAddr ∧ s.faultAddr < 2 ^ (s.cfg.W + 1)
  /-- Each completed instruction advanced `pc` by at least 3 (R105). -/
  traceBound : 3 * s.trace.length ≤ s.pc

/-- The events of a run, the latest first, form a chain that ends in `snap`: each event's post-state is where the next
one starts, and the first starts from reset (R111, R180). -/
def traceLinked : List TraceEvent → Snapshot → Prop
  | [], snap => snap = { x := Vector.replicate 32 0, ram := [], pc := 0 }
  | ev :: evs, snap => ev.post = snap ∧ traceLinked evs ev.pre

/-- The instructions a run has completed, in the order it completed them (R111). -/
def State.executed (s : State) : List Instr := (s.trace.map TraceEvent.instr).reverse

/-- A data address of the instruction is refused by the bounds checker in this state (R108): the conditions of R150. -/
def addressRefused (s : State) : Instr → Prop
  | .load _ _ => False
  | .read srcReg offset _ => 1024 ≤ s.readReg srcReg + offset
  | .write _ dstReg => 1024 ≤ s.readReg dstReg
  | .add _ addr addrReg => 1024 ≤ s.readReg addrReg ∨ 1024 ≤ addr

/-- The registers an instruction reads (R22). -/
def registersRead : Instr → List (Fin 32)
  | .load _ _ => []
  | .read srcReg _ _ => [srcReg]
  | .write srcReg dstReg => [srcReg, dstReg]
  | .add srcReg _ addrReg => [srcReg, addrReg]

/-- The registers an instruction writes (R22). -/
def registersWritten : Instr → List (Fin 32)
  | .load _ reg => [reg]
  | .read _ _ dstReg => [dstReg]
  | .write _ _ => []
  | .add _ _ _ => []

/-- What the latest write to cell `a` among the events of a run stored there, and 0 where none wrote it (R52): WRITE
stores `x[src_reg]` at `x[dst_reg]` (R130), ADD its sum `mod 2^W` at `addr` (R141). -/
def lastWritten (W : Nat) : List TraceEvent → Nat → Nat
  | [], _ => 0
  | ev :: evs, a =>
    match ev.instr with
    | .load _ _ => lastWritten W evs a
    | .read _ _ _ => lastWritten W evs a
    | .write srcReg dstReg => if ev.pre.x[dstReg] = a then ev.pre.x[srcReg] else lastWritten W evs a
    | .add srcReg addr addrReg =>
      if addr = a then (ev.pre.x[srcReg] + ev.pre.ram.read ev.pre.x[addrReg]) % 2 ^ W else lastWritten W evs a

/-- The bytes with the reserved bits of their first instruction cleared, by the masks of spec/opcode_table.json (R61 to
R64, R72): `b4[7:6]` of LOAD, `b3[6:0]` of READ, `b2[5:0]` of WRITE, `b3[1:0]` of ADD. -/
def clearReserved : List Byte → List Byte
  | [] => []
  | op :: rest =>
    if op = 0x43#8 then op :: rest.modify 3 (· &&& 0x3F#8)
    else if op = 0xC8#8 then op :: rest.modify 2 (· &&& 0x80#8)
    else if op = 0x50#8 then op :: rest.modify 1 (· &&& 0xC0#8)
    else if op = 0xB2#8 then op :: rest.modify 2 (· &&& 0xFC#8)
    else op :: rest

/-- A successful run ends in `Halted` (R113). -/
def State.successful (s : State) : Prop := s.run = .halted

/-- Register file, memory, pc, inputs and trace are as before: what a fault entry leaves alone (R151). -/
structure State.SameMachine (s t : State) : Prop where
  cfg : t.cfg = s.cfg
  x : t.x = s.x
  ram : t.ram = s.ram
  pc : t.pc = s.pc
  prog : t.prog = s.prog
  trace : t.trace = s.trace

/-- Everything but registers and memory is as before: what an instruction that completes leaves alone before the
sequencer advances `pc` (R26, R29, R34). -/
structure State.SameControl (s t : State) : Prop where
  cfg : t.cfg = s.cfg
  pc : t.pc = s.pc
  run : t.run = s.run
  cause : t.cause = s.cause
  sub : t.sub = s.sub
  faultPc : t.faultPc = s.faultPc
  faultAddr : t.faultAddr = s.faultAddr
  prog : t.prog = s.prog
  trace : t.trace = s.trace

/-- The fault record a fault entry at `s` writes (R28, R151), with the codes of R150. -/
structure State.RecordOf (s t : State) (cause : Cause) (sub : BitVec 2) (addr : Nat) : Prop where
  run : t.run = .faulted
  runCode : Machine.runCode t.run = 2#2
  cause : t.cause = cause
  sub : t.sub = sub
  faultPc : t.faultPc = s.pc
  faultAddr : t.faultAddr = addr

end Sys2Proof.Machine
end

