-- ==== Sys2Proof/Certificates/Slice0/Obligations.lean ====
section
/-! DEFINITION. The statements for the provers, from the spec's numbered rules. No statement rests on a value this
model chose, but where its docstring names the log entry. -/

open Sys2Proof Sys2Proof.Machine

/-! ### Reset -/

/-- R180, R182: reset sets every register, every cell, `pc` and the fault record to 0 and `run` to Running; it keeps
the parameters and the program, and nothing else survives it. The model's choice, and not the rules', are that the
trace starts empty (log entry 8) and that the parameters are state which reset keeps (log entry 2). -/
def Obligations.ResetStartsEveryRunFresh : Prop :=
  (∀ (cfg : Config) (prog : List Byte) (s : State), s = State.resetWith cfg prog →
    (∀ i : Fin 32, s.readReg i = 0) ∧ (∀ a, s.readMem a = 0) ∧ s.pc = 0 ∧ s.run = .running ∧
    runCode s.run = 0#2 ∧ causeCode s.cause = 0#2 ∧ s.sub = 0#2 ∧ s.faultPc = 0 ∧ s.faultAddr = 0 ∧
    s.prog = prog ∧ s.cfg = cfg) ∧
  (∀ s : State, s.applyReset = State.resetWith s.cfg s.prog) ∧
  ∀ s t : State, s.cfg = t.cfg → s.prog = t.prog → s.applyReset = t.applyReset

/-- The reset state satisfies the invariant, for every admissible choice of the parameters and every program that fits;
so does `State.reset`, whose parameters are the model's choice (log entries 2 and 3). -/
def Obligations.ResetSatisfiesInvariant : Prop :=
  (∀ (cfg : Config) (prog : List Byte), 25 ≤ cfg.W → prog.length ≤ cfg.progMax →
    (State.resetWith cfg prog).Inv ∧
    traceLinked (State.resetWith cfg prog).trace (State.resetWith cfg prog).snapshot) ∧
  State.reset.Inv

/-! ### The sequencer -/

/-- R101: one step while Running. At `pc = L` it halts; where the bytes at `pc` do not decode it enters the Faulted
state; where they decode to `i` it runs `exec i`, and when that completes it advances `pc` by the length of `i` and
emits the trace event; when it raises, the rest of the step does not happen. -/
def Obligations.StepRunsTheDecodedInstruction : Prop :=
  ∀ s : State, s.Enabled →
    (s.pc = s.prog.length → step s = .next { s with run := .halted }) ∧
    (s.pc < s.prog.length → ∀ e, decode s.cfg.rsvPolicy (s.prog.drop s.pc) = .error e →
      ∃ t, step s = .next t ∧ s.SameMachine t ∧ s.RecordOf t .illegalInstruction (illegalSubCode e) 0) ∧
    (s.pc < s.prog.length → ∀ i, decode s.cfg.rsvPolicy (s.prog.drop s.pc) = .ok i →
      ∃ u, exec i s = .next u ∧
        (addressRefused s i → step s = .next u ∧ u.run = .faulted ∧ s.SameMachine u) ∧
        (¬ addressRefused s i → step s = .next
          { u with
            pc := s.pc + i.length
            trace := { instr := i, pre := { x := s.x, ram := s.ram, pc := s.pc },
                       post := { x := u.x, ram := u.ram, pc := s.pc + i.length } } :: s.trace }))

/-- R100: a step is enabled only while Running; in Halted and in Faulted none is, and the state never changes again.
That a step which is not enabled answers a fault, under these two names, is the model's reading (log entry 5). -/
def Obligations.NoStepOnceTheRunHasEnded : Prop :=
  (∀ s t : State, step s = .next t → s.run = .running) ∧
  (∀ s : State, 25 ≤ s.cfg.W → s.prog.length ≤ s.cfg.progMax →
    (s.run = .halted → step s = .fault .stuckHalted) ∧ (s.run = .faulted → step s = .fault .stuckFaulted)) ∧
  ∀ (fuel : Nat) (s : State), s.run ≠ .running → runToEnd fuel s = .next s

/-- R103: a normal halt happens exactly when the step finds `pc = L`; an empty program halts at its first step with
nothing executed and everything still 0; a program whose last instruction ends at `L` halts at the step after it. The
run status a halt leaves has the code 1 of R28. -/
def Obligations.NormalHaltExactlyAtProgramEnd : Prop :=
  (∀ s t : State, step s = .next t →
    (t.run = .halted ↔ s.pc = s.prog.length) ∧ (runCode t.run = 1#2 ↔ s.pc = s.prog.length)) ∧
  (∀ cfg : Config, 25 ≤ cfg.W → ∃ t, step (State.resetWith cfg []) = .next t ∧ t.run = .halted ∧ t.executed = [] ∧
    (∀ i : Fin 32, t.readReg i = 0) ∧ ∀ a, t.readMem a = 0) ∧
  ∀ s t : State, step s = .next t → t.run = .running → t.pc = t.prog.length →
    ∃ u, step t = .next u ∧ u.run = .halted ∧ t.SameMachine u

/-- R102: an instruction that executes has all its bytes inside the buffer, and after a step `pc <= L`: it never passes
`L` and never wraps. -/
def Obligations.PcNeverPassesProgramEnd : Prop :=
  ∀ s t : State, s.pc ≤ s.prog.length → step s = .next t →
    t.pc ≤ t.prog.length ∧ s.pc ≤ t.pc ∧
    ∀ i, decode s.cfg.rsvPolicy (s.prog.drop s.pc) = .ok i → s.pc + i.length ≤ s.prog.length

/-- R26, R104: no instruction writes `pc`; a step that goes on advances it by 5, 4, 3 or 4 bytes for LOAD, READ, WRITE
or ADD, and a step that halts or faults leaves it. -/
def Obligations.PcMovesOnlyByInstructionLength : Prop :=
  (∀ (i : Instr) (s t : State), exec i s = .next t → t.pc = s.pc) ∧
  ∀ s t : State, step s = .next t →
    (t.run ≠ .running → t.pc = s.pc) ∧
    (t.run = .running → ∃ i, decode s.cfg.rsvPolicy (s.prog.drop s.pc) = .ok i ∧
      t.pc = s.pc + match i with
        | .load _ _ => 5
        | .read _ _ _ => 4
        | .write _ _ => 3
        | .add _ _ _ => 4)

/-- R105: each completed step advances `pc` by at least 3, so from every state of the invariant the run ends, after at
most `floor(L / 3)` executed instructions and one step that halts or faults. -/
def Obligations.EveryRunEnds : Prop :=
  (∀ s t : State, step s = .next t → t.run = .running → s.pc + 3 ≤ t.pc) ∧
  ∀ s : State, s.Inv → ∃ t, runToEnd (s.prog.length / 3 + 1) s = .next t ∧ t.run ≠ .running ∧
    t.executed.length ≤ s.prog.length / 3

/-- Every step keeps the invariant: registers and cells below `2^W` (R24, R41), the memory canonical and inside 1024
cells (R33), `pc` in `[0, L]` (R25, R102), the fault record as R28 and R29 say, at most one event per 3 bytes (R105). -/
def Obligations.StepKeepsInvariant : Prop :=
  ∀ s t : State, s.Inv → step s = .next t → t.Inv

/-- Every step keeps the events of the run a chain from reset to the present state (R111, R180). -/
def Obligations.StepKeepsTraceLinked : Prop :=
  ∀ s t : State, traceLinked s.trace s.snapshot → step s = .next t → traceLinked t.trace t.snapshot

/-- R111: one event per completed instruction, with the decoded instruction, the state before it, and the state after
it with `pc` advanced; a step that faults or halts emits none. -/
def Obligations.OneTraceEventPerCompletedInstruction : Prop :=
  ∀ s t : State, step s = .next t →
    (t.run ≠ .running → t.trace = s.trace) ∧
    (t.run = .running → ∃ i, decode s.cfg.rsvPolicy (s.prog.drop s.pc) = .ok i ∧ t.pc = s.pc + i.length ∧
      t.trace = { instr := i, pre := { x := s.x, ram := s.ram, pc := s.pc },
                  post := { x := t.x, ram := t.ram, pc := t.pc } } :: s.trace)

/-! ### Decoding and encoding -/

/-- Words written out from the encodings of R61 to R64 (spec/95_test_vectors.md section 2.1) decode to the
instructions they stand for, whatever follows them, under both policies. -/
def Obligations.WrittenOutWordsDecode : Prop :=
  ∀ (pol : RsvPolicy) (rest : List Byte),
    decode pol (0x43#8 :: 0xEF#8 :: 0xCD#8 :: 0xAB#8 :: 0x23#8 :: rest) = .ok (.load 28036591 17) ∧
    decode pol (0xC8#8 :: 0xAA#8 :: 0x55#8 :: 0x00#8 :: rest) = .ok (.read 21 37 10) ∧
    decode pol (0x50#8 :: 0xAA#8 :: 0x80#8 :: rest) = .ok (.write 21 10) ∧
    decode pol (0xB2#8 :: 0x1A#8 :: 0x00#8 :: 0x10#8 :: rest) = .ok (.add 3 1024 4)

/-- R78: four opcodes are assigned; each of the other 252 is illegal under both policies, and fetching one raises
IllegalInstruction(UnknownOpcode). -/
def Obligations.UnassignedOpcodesAreIllegal : Prop :=
  (∀ (pol : RsvPolicy) (op : Byte) (rest : List Byte),
    decode pol (op :: rest) = .error .unknownOpcode ↔ op ∉ [0x43#8, 0xB2#8, 0x50#8, 0xC8#8]) ∧
  ∀ (s : State) (op : Byte) (rest : List Byte), s.Enabled → s.prog.drop s.pc = op :: rest →
    op ∉ [0x43#8, 0xB2#8, 0x50#8, 0xC8#8] →
    ∃ t, step s = .next t ∧ s.SameMachine t ∧ s.RecordOf t .illegalInstruction 0#2 0

/-- R71, R60: an assigned opcode is refused as Truncated exactly when fewer bytes remain than its format has, whatever
its reserved bits are. -/
def Obligations.TruncatedExactlyWhenBytesAreMissing : Prop :=
  ∀ (pol : RsvPolicy) (op : Byte) (len : Nat) (rest : List Byte),
    (op, len) ∈ [(0x43#8, 5), (0xC8#8, 4), (0x50#8, 3), (0xB2#8, 4)] →
    (decode pol (op :: rest) = .error .truncated ↔ rest.length + 1 < len)

/-- R72: under `ignore` the reserved bits are not read, as if they were 0; under `trap` an instruction with one set is
refused with ReservedBits, and any other decodes as under `ignore`. -/
def Obligations.ReservedBitsFollowPolicy : Prop :=
  ∀ bytes : List Byte,
    decode .ignore bytes = decode .trap (clearReserved bytes) ∧
    (clearReserved bytes = bytes → decode .trap bytes = decode .ignore bytes) ∧
    (clearReserved bytes ≠ bytes → ∀ i, decode .ignore bytes = .ok i → decode .trap bytes = .error .reservedBits)

/-- R77, first law: every well-formed instruction, with every value of every field, is decoded from its encoding, under
both policies and whatever bytes follow. -/
def Obligations.DecodeOfEncodeIsIdentity : Prop :=
  ∀ (pol : RsvPolicy) (i : Instr) (rest : List Byte), i.wellFormed = true → decode pol (encode i ++ rest) = .ok i

/-- R77, second law: an accepted byte sequence is the encoding of its instruction exactly when its reserved bits are 0,
so under `trap` always. -/
def Obligations.EncodeOfDecodeIsIdentity : Prop :=
  ∀ (pol : RsvPolicy) (bytes : List Byte) (i : Instr), decode pol bytes = .ok i →
    (encode i = bytes.take i.length ↔ clearReserved bytes = bytes) ∧
    (pol = .trap → encode i = bytes.take i.length)

/-- R76: a field value of any size, negative ones too, is encoded as `v mod 2^n`: that is what its encoding decodes to. -/
def Obligations.OutOfWidthFieldsKeepLowBits : Prop :=
  ∀ (pol : RsvPolicy) (rest : List Byte) (a b c : Int),
    decode pol (encodeLoad a b ++ rest) = .ok (.load (a % 2 ^ 25).toNat (Fin.ofNat 32 (b % 2 ^ 5).toNat)) ∧
    decode pol (encodeRead a b c ++ rest) =
      .ok (.read (Fin.ofNat 32 (a % 2 ^ 5).toNat) (b % 2 ^ 7).toNat (Fin.ofNat 32 (c % 2 ^ 5).toNat)) ∧
    decode pol (encodeWrite a b ++ rest) =
      .ok (.write (Fin.ofNat 32 (a % 2 ^ 5).toNat) (Fin.ofNat 32 (b % 2 ^ 5).toNat)) ∧
    decode pol (encodeAdd a b c ++ rest) =
      .ok (.add (Fin.ofNat 32 (a % 2 ^ 5).toNat) (b % 2 ^ 12).toNat (Fin.ofNat 32 (c % 2 ^ 5).toNat))

/-- R70, R71: the decoder reads the bytes of the one instruction and nothing after them. What it accepts rests on that
instruction's bytes alone, UnknownOpcode on the opcode byte alone, ReservedBits on the bytes of the opcode's format
alone; Truncated rests on the opcode and on how many bytes remain, and on no byte's value. -/
def Obligations.DecodeReadsOnlyItsOwnBytes : Prop :=
  ∀ (pol : RsvPolicy) (bytes rest : List Byte),
    (∀ i, decode pol bytes = .ok i → decode pol (bytes.take i.length ++ rest) = .ok i) ∧
    (decode pol bytes = .error .unknownOpcode → decode pol (bytes.take 1 ++ rest) = .error .unknownOpcode) ∧
    (∀ op len, (op, len) ∈ [(0x43#8, 5), (0xC8#8, 4), (0x50#8, 3), (0xB2#8, 4)] → bytes.head? = some op →
      decode pol bytes = .error .reservedBits → decode pol (bytes.take len ++ rest) = .error .reservedBits) ∧
    (decode pol bytes = .error .truncated → bytes.length = (bytes.take 1 ++ rest).length →
      decode pol (bytes.take 1 ++ rest) = .error .truncated)

/-- A word of the opcode table placed where `step` fetches is what the next step runs (log entries 9 and 11: the
placing stands for the host's load of a program, R110, R183). -/
def Obligations.PlacedTableWordIsRun : Prop :=
  ∀ (s u : State) (nbits w : Nat) (i : Instr), 25 ≤ s.cfg.W → s.cfg.rsvPolicy = .trap → nbits ≤ 40 →
    s.prog.length ≤ s.cfg.progMax → s.pc + 5 ≤ s.cfg.progMax → decodeTableWord nbits w = some i →
    u = s.withFetchWord nbits w →
    (∃ t, exec i u = .next t ∧ step u = .next (u.retire i t)) ∧
    u.cfg = s.cfg ∧ u.x = s.x ∧ u.ram = s.ram ∧ u.pc = s.pc ∧ u.trace = s.trace ∧
    (∀ k, k < s.pc → k < s.prog.length → u.prog[k]? = s.prog[k]?) ∧ ∀ k, s.pc + 5 ≤ k → u.prog[k]? = s.prog[k]?

/-! ### The instructions -/

/-- R121: LOAD completes from every state, `x[reg]` is the constant, and nothing else is changed. -/
def Obligations.LoadWritesItsConstant : Prop :=
  ∀ (s : State) (const : Nat) (reg : Fin 32), 25 ≤ s.cfg.W → const < 2 ^ 25 →
    ∃ t, exec (.load const reg) s = .next t ∧ t.readReg reg = const ∧
      (∀ r, r ≠ reg → t.readReg r = s.readReg r) ∧ (∀ a, t.readMem a = s.readMem a) ∧ s.SameControl t

/-- R124, R125: READ with an address in bounds completes, `x[dst_reg]` is the cell at the exact sum of the OLD
`x[src_reg]` and the offset, and nothing else is changed. -/
def Obligations.ReadLoadsTheAddressedCell : Prop :=
  ∀ (s : State) (srcReg : Fin 32) (offset : Nat) (dstReg : Fin 32), s.readReg srcReg + offset < 1024 →
    ∃ t, exec (.read srcReg offset dstReg) s = .next t ∧
      t.readReg dstReg = s.readMem (s.readReg srcReg + offset) ∧
      (∀ r, r ≠ dstReg → t.readReg r = s.readReg r) ∧ (∀ a, t.readMem a = s.readMem a) ∧ s.SameControl t

/-- R124, R125: READ with an exact sum of 1024 or more, also one at or above `2^W`, raises MemoryFault(READ) with that
sum, unwrapped, and changes nothing else. -/
def Obligations.ReadOutOfBoundsFaults : Prop :=
  ∀ (s : State) (srcReg : Fin 32) (offset : Nat) (dstReg : Fin 32), 1024 ≤ s.readReg srcReg + offset →
    ∃ t, exec (.read srcReg offset dstReg) s = .next t ∧ s.SameMachine t ∧
      s.RecordOf t .memoryFault 0#2 (s.readReg srcReg + offset)

/-- R130, R131: WRITE with an address in bounds completes, the cell at `x[dst_reg]` is the whole value of `x[src_reg]`,
and nothing else is changed. The memory is canonical, which every step keeps (StepKeepsInvariant). -/
def Obligations.WriteStoresTheRegister : Prop :=
  ∀ (s : State) (srcReg dstReg : Fin 32), s.ram.wf → s.readReg dstReg < 1024 →
    ∃ t, exec (.write srcReg dstReg) s = .next t ∧ t.readMem (s.readReg dstReg) = s.readReg srcReg ∧
      (∀ a, a ≠ s.readReg dstReg → t.readMem a = s.readMem a) ∧ (∀ r, t.readReg r = s.readReg r) ∧
      t.ram.wf ∧ s.SameControl t

/-- R130, R131: WRITE with `x[dst_reg]` of 1024 or more raises MemoryFault(WRITE) with that address and changes nothing
else. -/
def Obligations.WriteOutOfBoundsFaults : Prop :=
  ∀ (s : State) (srcReg dstReg : Fin 32), 1024 ≤ s.readReg dstReg →
    ∃ t, exec (.write srcReg dstReg) s = .next t ∧ s.SameMachine t ∧
      s.RecordOf t .memoryFault 1#2 (s.readReg dstReg)

/-- R141, R142: ADD with both addresses in bounds completes, the cell at `addr` is the sum `mod 2^W` of `x[src_reg]` and
the OLD cell at `x[addr_reg]`, and nothing else is changed: no register, no flag. -/
def Obligations.AddStoresTheSum : Prop :=
  ∀ (s : State) (srcReg : Fin 32) (addr : Nat) (addrReg : Fin 32), s.ram.wf → s.readReg addrReg < 1024 →
    addr < 1024 →
    ∃ t, exec (.add srcReg addr addrReg) s = .next t ∧
      t.readMem addr = (s.readReg srcReg + s.readMem (s.readReg addrReg)) % 2 ^ s.cfg.W ∧
      (∀ a, a ≠ addr → t.readMem a = s.readMem a) ∧ (∀ r, t.readReg r = s.readReg r) ∧
      t.ram.wf ∧ s.SameControl t

/-- R141, R142, R154: ADD with `x[addr_reg]` out of bounds raises MemoryFault(ADD_READ) with it, whatever `addr` is;
otherwise with `addr` out of bounds MemoryFault(ADD_WRITE) with `addr`; nothing else is changed. -/
def Obligations.AddFaultsReadAddressFirst : Prop :=
  ∀ (s : State) (srcReg : Fin 32) (addr : Nat) (addrReg : Fin 32),
    (1024 ≤ s.readReg addrReg →
      ∃ t, exec (.add srcReg addr addrReg) s = .next t ∧ s.SameMachine t ∧
        s.RecordOf t .memoryFault 2#2 (s.readReg addrReg)) ∧
    (s.readReg addrReg < 1024 → 1024 ≤ addr →
      ∃ t, exec (.add srcReg addr addrReg) s = .next t ∧ s.SameMachine t ∧ s.RecordOf t .memoryFault 3#2 addr)

/-- R109, R143: an ADD whose exact sum stays below `2^W` stores that sum, as the source's unbounded integers do; one
that reaches it stores the sum less `2^W`; swapping the addends changes nothing. -/
def Obligations.AddIsExactBelowOverflow : Prop :=
  ∀ (s t : State) (srcReg : Fin 32) (addr : Nat) (addrReg : Fin 32), s.ram.wf → s.readReg srcReg < 2 ^ s.cfg.W →
    s.readMem (s.readReg addrReg) < 2 ^ s.cfg.W → s.readReg addrReg < 1024 → addr < 1024 →
    exec (.add srcReg addr addrReg) s = .next t →
    (s.readReg srcReg + s.readMem (s.readReg addrReg) < 2 ^ s.cfg.W →
      t.readMem addr = s.readReg srcReg + s.readMem (s.readReg addrReg)) ∧
    (2 ^ s.cfg.W ≤ s.readReg srcReg + s.readMem (s.readReg addrReg) →
      t.readMem addr + 2 ^ s.cfg.W = s.readReg srcReg + s.readMem (s.readReg addrReg)) ∧
    ∀ u v : State, u.cfg = s.cfg → u.ram.wf → u.readReg addrReg < 1024 →
      u.readReg srcReg = s.readMem (s.readReg addrReg) → u.readMem (u.readReg addrReg) = s.readReg srcReg →
      exec (.add srcReg addr addrReg) u = .next v → v.readMem addr = t.readMem addr

/-- The frame of LOAD and READ, which store nothing: whenever they answer a next state, every register but the
destination, every cell, `pc`, the parameters, the program and the trace are unchanged, and so are the run state and
the fault record, but for READ's fault entry, which leaves the destination too. -/
def Obligations.RegisterFormsFrame : Prop :=
  ∀ s t : State,
    (∀ (const : Nat) (reg : Fin 32), exec (.load const reg) s = .next t →
      (∀ r, r ≠ reg → t.readReg r = s.readReg r) ∧ (∀ a, t.readMem a = s.readMem a) ∧ s.SameControl t) ∧
    ∀ (srcReg : Fin 32) (offset : Nat) (dstReg : Fin 32), exec (.read srcReg offset dstReg) s = .next t →
      (∀ r, r ≠ dstReg → t.readReg r = s.readReg r) ∧ (∀ a, t.readMem a = s.readMem a) ∧
      t.pc = s.pc ∧ t.cfg = s.cfg ∧ t.prog = s.prog ∧ t.trace = s.trace ∧
      (inBounds (readAddress s srcReg offset) = true → s.SameControl t) ∧
      (inBounds (readAddress s srcReg offset) = false → s.SameMachine t)

/-- The frame of WRITE and ADD, which store one cell at an address they compute: whenever they answer a next state,
every register, every other cell, `pc`, the parameters, the program and the trace are unchanged, and so are the run
state and the fault record, but for a fault entry, which stores no cell at all. -/
def Obligations.StoringFormsFrame : Prop :=
  ∀ s t : State,
    (∀ srcReg dstReg : Fin 32, exec (.write srcReg dstReg) s = .next t →
      (∀ r, t.readReg r = s.readReg r) ∧
      (∀ a, writeAddress s dstReg = a → ∀ b, b ≠ a → t.readMem b = s.readMem b) ∧
      t.pc = s.pc ∧ t.cfg = s.cfg ∧ t.prog = s.prog ∧ t.trace = s.trace ∧
      (inBounds (writeAddress s dstReg) = true → s.SameControl t) ∧
      (inBounds (writeAddress s dstReg) = false → s.SameMachine t)) ∧
    ∀ (srcReg : Fin 32) (addr : Nat) (addrReg : Fin 32), exec (.add srcReg addr addrReg) s = .next t →
      (∀ r, t.readReg r = s.readReg r) ∧
      (∀ a, addWriteAddress addr = a → ∀ b, b ≠ a → t.readMem b = s.readMem b) ∧
      t.pc = s.pc ∧ t.cfg = s.cfg ∧ t.prog = s.prog ∧ t.trace = s.trace ∧
      (inBounds (addReadAddress s addrReg) = true ∧ inBounds (addWriteAddress addr) = true → s.SameControl t) ∧
      (¬ (inBounds (addReadAddress s addrReg) = true ∧ inBounds (addWriteAddress addr) = true) → s.SameMachine t)

/-- R22: the registers an instruction reads and writes. No other register is written; and what it writes, where it
stores and whether it faults depend on no other register. -/
def Obligations.InstructionsUseOnlyTheirRegisters : Prop :=
  (∀ (i : Instr) (s t : State), exec i s = .next t → ∀ r, r ∉ registersWritten i → t.readReg r = s.readReg r) ∧
  ∀ (i : Instr) (s s' t t' : State), s.cfg = s'.cfg → s.ram = s'.ram → s.run = s'.run →
    (∀ r ∈ registersRead i, s.readReg r = s'.readReg r) → exec i s = .next t → exec i s' = .next t' →
    t.ram = t'.ram ∧ t.run = t'.run ∧ (addressRefused s i ↔ addressRefused s' i) ∧
    (addressRefused s i → t.cause = t'.cause ∧ t.sub = t'.sub ∧ t.faultAddr = t'.faultAddr) ∧
    (¬ addressRefused s i → ∀ r ∈ registersWritten i, t.readReg r = t'.readReg r)

/-! ### Rules of the whole machine -/

/-- R22: a step that changes a register has executed a LOAD or a READ whose destination it is. -/
def Obligations.OnlyLoadAndReadChangeRegisters : Prop :=
  ∀ (s t : State) (r : Fin 32), step s = .next t → t.readReg r ≠ s.readReg r →
    ∃ i, decode s.cfg.rsvPolicy (s.prog.drop s.pc) = .ok i ∧
      ((∃ const, i = .load const r) ∨ ∃ srcReg offset, i = .read srcReg offset r)

/-- R41, R42: a step that changes a cell has executed a WRITE whose `x[dst_reg]` is its address or an ADD whose `addr`
is, and the address is below 1024. -/
def Obligations.OnlyWriteAndAddChangeCells : Prop :=
  ∀ (s t : State) (a : Nat), step s = .next t → t.readMem a ≠ s.readMem a →
    a < 1024 ∧ ∃ i, decode s.cfg.rsvPolicy (s.prog.drop s.pc) = .ok i ∧
      ((∃ srcReg dstReg, i = .write srcReg dstReg ∧ s.readReg dstReg = a) ∨ ∃ srcReg addrReg, i = .add srcReg a addrReg)

/-- R187, R34: no instruction and no step writes the program buffer. Nor does one write the parameters, which are state
by the model's choice (log entry 2). -/
def Obligations.ProgramBufferIsNeverWritten : Prop :=
  (∀ (i : Instr) (s t : State), exec i s = .next t → t.prog = s.prog ∧ t.cfg = s.cfg) ∧
  ∀ s t : State, step s = .next t → t.prog = s.prog ∧ t.cfg = s.cfg

/-- R55: what is fetched depends on the program buffer and `pc` alone. Of two machines that differ in registers, memory
and history only: when both complete their next instruction they complete the same one; one ends in IllegalInstruction
exactly when the other does, with the same record; one halts exactly when the other does. -/
def Obligations.FetchDoesNotDependOnData : Prop :=
  ∀ s s' t t' : State, s.cfg = s'.cfg → s.prog = s'.prog → s.pc = s'.pc → step s = .next t → step s' = .next t' →
    (t.run = .running → t'.run = .running →
      t.pc = t'.pc ∧ (t.trace.head?.map TraceEvent.instr) = (t'.trace.head?.map TraceEvent.instr)) ∧
    (t.run = .faulted ∧ t.cause = .illegalInstruction ↔ t'.run = .faulted ∧ t'.cause = .illegalInstruction) ∧
    (t.run = .faulted → t.cause = .illegalInstruction →
      t.sub = t'.sub ∧ t.faultPc = t'.faultPc ∧ t.faultAddr = t'.faultAddr) ∧
    (t.run = .halted ↔ t'.run = .halted)

/-- R150, R151: the table of exceptions. Each row: when the step raises it, and the record it leaves, with the codes of
its cause, its sub-cause and the run status (R28); nothing else changes. And a decoded instruction raises nothing when its addresses are in bounds. -/
def Obligations.ExceptionsAreRaisedAsTabled : Prop :=
  ∀ s : State, s.Enabled → s.pc < s.prog.length →
    (decode s.cfg.rsvPolicy (s.prog.drop s.pc) = .error .unknownOpcode →
      ∃ t, step s = .next t ∧ s.SameMachine t ∧ s.RecordOf t .illegalInstruction 0#2 0 ∧ causeCode t.cause = 1#2) ∧
    (decode s.cfg.rsvPolicy (s.prog.drop s.pc) = .error .truncated →
      ∃ t, step s = .next t ∧ s.SameMachine t ∧ s.RecordOf t .illegalInstruction 1#2 0 ∧ causeCode t.cause = 1#2) ∧
    (decode s.cfg.rsvPolicy (s.prog.drop s.pc) = .error .reservedBits →
      ∃ t, step s = .next t ∧ s.SameMachine t ∧ s.RecordOf t .illegalInstruction 2#2 0 ∧ causeCode t.cause = 1#2) ∧
    (∀ srcReg offset dstReg, decode s.cfg.rsvPolicy (s.prog.drop s.pc) = .ok (.read srcReg offset dstReg) →
      1024 ≤ s.readReg srcReg + offset →
      ∃ t, step s = .next t ∧ s.SameMachine t ∧ s.RecordOf t .memoryFault 0#2 (s.readReg srcReg + offset) ∧
        causeCode t.cause = 2#2) ∧
    (∀ srcReg dstReg, decode s.cfg.rsvPolicy (s.prog.drop s.pc) = .ok (.write srcReg dstReg) →
      1024 ≤ s.readReg dstReg →
      ∃ t, step s = .next t ∧ s.SameMachine t ∧ s.RecordOf t .memoryFault 1#2 (s.readReg dstReg) ∧
        causeCode t.cause = 2#2) ∧
    (∀ srcReg addr addrReg, decode s.cfg.rsvPolicy (s.prog.drop s.pc) = .ok (.add srcReg addr addrReg) →
      1024 ≤ s.readReg addrReg →
      ∃ t, step s = .next t ∧ s.SameMachine t ∧ s.RecordOf t .memoryFault 2#2 (s.readReg addrReg) ∧
        causeCode t.cause = 2#2) ∧
    (∀ srcReg addr addrReg, decode s.cfg.rsvPolicy (s.prog.drop s.pc) = .ok (.add srcReg addr addrReg) →
      s.readReg addrReg < 1024 → 1024 ≤ addr →
      ∃ t, step s = .next t ∧ s.SameMachine t ∧ s.RecordOf t .memoryFault 3#2 addr ∧
        causeCode t.cause = 2#2) ∧
    ∀ i, decode s.cfg.rsvPolicy (s.prog.drop s.pc) = .ok i → ¬ addressRefused s i →
      ∃ t, step s = .next t ∧ t.run = .running

/-- R47, R153: a step that enters the Faulted state has had no effect but the record: registers, memory, `pc` and trace
are those of the last completed instruction, and `fault_pc = pc`; an instruction that does not raise leaves the fault
record alone. -/
def Obligations.FaultsArePrecise : Prop :=
  (∀ s t : State, step s = .next t → t.run = .faulted → s.SameMachine t ∧ t.faultPc = t.pc ∧ t.cause ≠ .none) ∧
  ∀ (i : Instr) (s t : State), exec i s = .next t → (addressRefused s i → s.SameMachine t) ∧
    (¬ addressRefused s i → s.SameControl t)

/-- R52: the memory a READ reads from holds, in every cell, the value of the latest earlier write of the run to it, or 0
if no instruction has written it since reset. -/
def Obligations.MemoryHoldsTheLatestWrite : Prop :=
  (∀ (cfg : Config) (prog : List Byte) (a : Nat),
    (State.resetWith cfg prog).readMem a = lastWritten cfg.W (State.resetWith cfg prog).trace a) ∧
  ∀ s t : State, s.ram.wf → (∀ a, s.readMem a = lastWritten s.cfg.W s.trace a) → step s = .next t →
    t.ram.wf ∧ ∀ a, t.readMem a = lastWritten t.cfg.W t.trace a

/-- R25, R28: `pc` and `fault_pc` fit in `PC_BITS = ceil(log2(PROG_MAX + 1))` bits. -/
def Obligations.PcFitsItsWidth : Prop :=
  ∀ s : State, s.Inv → s.pc < 2 ^ s.cfg.pcBits ∧ s.faultPc < 2 ^ s.cfg.pcBits

/-! ### Whole runs -/

/-- R110, D10: `execute` of a program that fits answers the final state of a run that has ended; a longer program gets
no run (the refusal's name is log entry 7). -/
def Obligations.ExecuteAnswersAnEndedRun : Prop :=
  ∀ (cfg : Config) (prog : List Byte), 25 ≤ cfg.W →
    (prog.length ≤ cfg.progMax → ∃ t, execute cfg prog = .next t ∧ t.run ≠ .running ∧ t.Inv ∧ t.prog = prog) ∧
    (cfg.progMax < prog.length → execute cfg prog = .refused .programTooLong)

/-- R104, R184: a run that ends in Halted has executed exactly the instructions of the program, in program order, and
its buffer is well formed. -/
def Obligations.HaltedRunExecutedTheWholeProgram : Prop :=
  ∀ (cfg : Config) (prog : List Byte) (t : State), execute cfg prog = .next t → t.successful →
    decodeProgram cfg.rsvPolicy prog = .ok t.executed ∧ programWellFormed cfg.rsvPolicy prog = true ∧
    t.pc = prog.length

/-- R81, R104, R153: a run that ends in Faulted has executed exactly the instructions before `fault_pc`; it ends in
IllegalInstruction only on a malformed buffer, with the sub-cause of its first bad offset, and in MemoryFault only at an
instruction whose address is out of bounds in the final state. -/
def Obligations.FaultedRunExecutedTheProgramUpToTheFault : Prop :=
  ∀ (cfg : Config) (prog : List Byte) (t : State), execute cfg prog = .next t → t.run = .faulted →
    decodeProgram cfg.rsvPolicy (prog.take t.faultPc) = .ok t.executed ∧
    (t.cause = .illegalInstruction → ∃ e, decodeProgram cfg.rsvPolicy prog = .error e ∧ t.sub = illegalSubCode e ∧
      decode cfg.rsvPolicy (prog.drop t.faultPc) = .error e) ∧
    (t.cause = .memoryFault → ∃ i, decode cfg.rsvPolicy (prog.drop t.faultPc) = .ok i ∧ addressRefused t i)

/-! ### The assembler -/

/-- R94, R96, R184: what the assembler emits is a well-formed buffer, under both policies, and decodes to exactly the
assembled instructions in source order, each numeric operand reduced to its field. -/
def Obligations.AssembledTextDecodesToItsInstructions : Prop :=
  ∀ (pol : RsvPolicy) (text : List Char) (bytes : List Byte), assembleBytes text = .ok bytes →
    programWellFormed pol bytes = true ∧
    ∃ is, assembleProgram text = .ok is ∧ decodeProgram pol bytes = .ok (is.map asmToInstr)

/-- R96: lines are assembled in source order, and the first line with an error aborts the whole assembly and is the
line reported; no bytes come out. -/
def Obligations.AssemblyStopsAtTheFirstBadLine : Prop :=
  (∀ (n : Nat) (lines : List (List Char)) (e : AsmError), assembleLines n lines = .error e ↔
    ∃ before line after, lines = before ++ line :: after ∧ (∀ l ∈ before, ∃ oi, assembleLine l = .ok oi) ∧
      assembleLine line = .error e.kind ∧ e.line = n + before.length) ∧
  (∀ (n : Nat) (lines : List (List Char)) (is : List AsmInstr), assembleLines n lines = .ok is ↔
    ∃ ois : List (Option AsmInstr), lines.map assembleLine = ois.map Except.ok ∧ is = ois.flatMap Option.toList) ∧
  ∀ (text : List Char) (e : AsmError), assembleProgram text = .error e → assembleBytes text = .error e

/-- R98, R91: one line is checked for its mnemonic, then its operand count, then its operands left to right, and the
first failure is reported; with good operands it is the mnemonic's instruction, the operands bound to its fields in the
order of R91. -/
def Obligations.AssemblerChecksInOrder : Prop :=
  (∀ m ops, m ∉ [mnemonicLoad, mnemonicRead, mnemonicWrite, mnemonicAdd] → assemble m ops = .error .unknownMnemonic) ∧
  (∀ m n ops, (m, n) ∈ [(mnemonicLoad, 2), (mnemonicRead, 3), (mnemonicWrite, 2), (mnemonicAdd, 3)] →
    (assemble m ops = .error .arityError ↔ ops.length ≠ n)) ∧
  (∀ a b c r, integerOperand a = .ok c → registerOperand b = .ok r →
    assemble mnemonicLoad [a, b] = .ok (.load c r)) ∧
  (∀ a b c src o dst, registerOperand a = .ok src → integerOperand b = .ok o → registerOperand c = .ok dst →
    assemble mnemonicRead [a, b, c] = .ok (.read src o dst)) ∧
  (∀ a b src dst, registerOperand a = .ok src → registerOperand b = .ok dst →
    assemble mnemonicWrite [a, b] = .ok (.write src dst)) ∧
  (∀ a b c src o r, registerOperand a = .ok src → integerOperand b = .ok o → registerOperand c = .ok r →
    assemble mnemonicAdd [a, b, c] = .ok (.add src o r)) ∧
  (∀ a b k, integerOperand a = .error k → assemble mnemonicLoad [a, b] = .error k) ∧
  (∀ a b c k, integerOperand a = .ok c → registerOperand b = .error k → assemble mnemonicLoad [a, b] = .error k) ∧
  (∀ a b k, registerOperand a = .error k → assemble mnemonicWrite [a, b] = .error k) ∧
  (∀ a b r k, registerOperand a = .ok r → registerOperand b = .error k → assemble mnemonicWrite [a, b] = .error k) ∧
  ∀ m, m ∈ [mnemonicRead, mnemonicAdd] →
    (∀ a b c k, registerOperand a = .error k → assemble m [a, b, c] = .error k) ∧
    (∀ a b c r k, registerOperand a = .ok r → integerOperand b = .error k → assemble m [a, b, c] = .error k) ∧
    ∀ a b c r n k, registerOperand a = .ok r → integerOperand b = .ok n → registerOperand c = .error k →
      assemble m [a, b, c] = .error k

/-- R92: a register token is `R` or `r` and one or more decimal digits of a number in `[0, 31]`, leading zeros allowed,
and maps to that number; every other token fails. -/
def Obligations.RegisterTokensAreExactlyTheirDigits : Prop :=
  ∀ (token : List Char) (r : Fin 32), parseRegister token = some r ↔
    ∃ c ds, token = c :: ds ∧ (c = 'R' ∨ c = 'r') ∧ ds ≠ [] ∧ (∀ d ∈ ds, d.isDigit = true) ∧
      ds.foldl (fun n d => 10 * n + (d.toNat - 48)) 0 = r.val

/-- R93: a numeric token is an optional sign and one or more decimal digits, read in base 10; every other token fails. -/
def Obligations.IntegerTokensAreSignedDecimals : Prop :=
  ∀ (token : List Char) (v : Int), parseInteger token = some v ↔
    ∃ ds : List Char, ds ≠ [] ∧ (∀ d ∈ ds, d.isDigit = true) ∧
      ((token = ds ∧ v = (ds.foldl (fun n d => 10 * n + (d.toNat - 48)) 0 : Nat)) ∨
       (token = '+' :: ds ∧ v = (ds.foldl (fun n d => 10 * n + (d.toNat - 48)) 0 : Nat)) ∨
       (token = '-' :: ds ∧ v = -((ds.foldl (fun n d => 10 * n + (d.toNat - 48)) 0 : Nat) : Int)))

/-- R90, D14: source text has one instruction per line; `;` begins a comment that runs to the end of the line; a blank
line gives no instruction; a mnemonic, white space and operands separated by commas are that instruction, the white
space around each operand being no part of it. The model's choice, and not R90's (log entry 13), are: the line feed as
the end of a line; which characters are white space; that a line of nothing but white space is a blank line; and that
the mnemonic is everything up to the first white space, a comma in it included. -/
def Obligations.SourceLinesFollowTheGrammar : Prop :=
  (∀ lines : List (List Char), lines ≠ [] → (∀ line ∈ lines, '\n' ∉ line) →
    assembleProgram (['\n'].intercalate lines) = assembleLines 1 lines) ∧
  (∀ line comment : List Char, ';' ∉ line → assembleLine (line ++ ';' :: comment) = assembleLine line) ∧
  (∀ line : List Char, (∀ c ∈ line, c.isWhitespace = true) → assembleLine line = .ok none) ∧
  ∀ (mnemonic gap : List Char) (operands : List (List Char × List Char × List Char)),
    mnemonic ≠ [] → (∀ c ∈ mnemonic, c.isWhitespace = false ∧ c ≠ ';') →
    gap ≠ [] → (∀ c ∈ gap, c.isWhitespace = true) → operands ≠ [] →
    (∀ o ∈ operands, (∀ c ∈ o.1, c.isWhitespace = true) ∧ (∀ c ∈ o.2.2, c.isWhitespace = true) ∧
      o.2.1 ≠ [] ∧ (∀ c ∈ o.2.1, c ≠ ',' ∧ c ≠ ';') ∧
      (∀ c ∈ o.2.1.head?, c.isWhitespace = false) ∧ ∀ c ∈ o.2.1.getLast?, c.isWhitespace = false) →
    assembleLine (mnemonic ++ gap ++ [','].intercalate (operands.map fun o => o.1 ++ o.2.1 ++ o.2.2)) =
      (assemble mnemonic (operands.map fun o => o.2.1)).map some

/-- R104, R111: every step keeps the completed instructions of the run exactly those that the bytes before `pc` decode
to, in program order from offset 0; reset has it, with none completed and `pc = 0`. -/
def Obligations.StepKeepsExecutedProgram : Prop :=
  (∀ (cfg : Config) (prog : List Byte), decodeProgram cfg.rsvPolicy
    (prog.take (State.resetWith cfg prog).pc) = .ok (State.resetWith cfg prog).executed) ∧
  ∀ s t : State, decodeProgram s.cfg.rsvPolicy (s.prog.take s.pc) = .ok s.executed → step s = .next t →
    decodeProgram t.cfg.rsvPolicy (t.prog.take t.pc) = .ok t.executed
end

