-- ==== Sys2Proof/Laws/Decode.lean ====
section
/-! SUPPORT. What a decode that accepts can have read, said once. -/

namespace Sys2Proof

theorem acceptReserved_cases {pol : RsvPolicy} {n : Nat} {rsv : BitVec n} {i j : Instr}
    (h : acceptReserved pol rsv i = .ok j) : j = i ∧ (pol = .trap → rsv = 0) := by
  unfold acceptReserved at h
  split at h
  · simp at h
  · rename_i hn
    exact ⟨(Except.ok.inj h).symm, fun hp => by_contra fun hr => hn ⟨hp, hr⟩⟩

/-- The four shapes of bytes the decoder accepts (R60, R71). -/
theorem decode_cases {pol : RsvPolicy} {bytes : List Byte} {i : Instr} (h : decode pol bytes = .ok i) :
    (∃ b1 b2 b3 b4 rest, bytes = 0x43#8 :: b1 :: b2 :: b3 :: b4 :: rest ∧ decodeLoad pol b1 b2 b3 b4 = .ok i) ∨
    (∃ b1 b2 b3 rest, bytes = 0xC8#8 :: b1 :: b2 :: b3 :: rest ∧ decodeRead pol b1 b2 b3 = .ok i) ∨
    (∃ b1 b2 rest, bytes = 0x50#8 :: b1 :: b2 :: rest ∧ decodeWrite pol b1 b2 = .ok i) ∨
    (∃ b1 b2 b3 rest, bytes = 0xB2#8 :: b1 :: b2 :: b3 :: rest ∧ decodeAdd pol b1 b2 b3 = .ok i) := by
  unfold decode at h
  split at h
  · simp at h
  · split at h
    · rename_i hop
      subst hop
      split at h
      · exact .inl ⟨_, _, _, _, _, rfl, h⟩
      · simp at h
    · split at h
      · rename_i hop
        subst hop
        split at h
        · exact .inr (.inl ⟨_, _, _, _, rfl, h⟩)
        · simp at h
      · split at h
        · rename_i hop
          subst hop
          split at h
          · exact .inr (.inr (.inl ⟨_, _, _, rfl, h⟩))
          · simp at h
        · split at h
          · rename_i hop
            subst hop
            split at h
            · exact .inr (.inr (.inr ⟨_, _, _, _, rfl, h⟩))
            · simp at h
          · simp at h

/-- A decoded instruction's bytes are all there (R71, R102). -/
theorem length_le_of_decode {pol : RsvPolicy} {bytes : List Byte} {i : Instr} (h : decode pol bytes = .ok i) :
    i.length ≤ bytes.length := by
  rcases decode_cases h with ⟨_, _, _, _, _, rfl, h⟩ | ⟨_, _, _, _, rfl, h⟩ | ⟨_, _, _, rfl, h⟩ | ⟨_, _, _, _, rfl, h⟩ <;>
    rw [(acceptReserved_cases h).1] <;> simp [Instr.length]

/-- Every decoded instruction is well formed (R66, R73). -/
theorem wellFormed_of_decode {pol : RsvPolicy} {bytes : List Byte} {i : Instr} (h : decode pol bytes = .ok i) :
    i.wellFormed = true := by
  rcases decode_cases h with ⟨_, _, _, _, _, rfl, h⟩ | ⟨_, _, _, _, rfl, h⟩ | ⟨_, _, _, rfl, h⟩ | ⟨_, _, _, _, rfl, h⟩ <;>
    rw [(acceptReserved_cases h).1] <;> simp only [Instr.wellFormed, decide_eq_true_eq] <;> exact BitVec.isLt _

/-- Every instruction is 3 to 5 bytes long (R80). -/
theorem length_bounds (i : Instr) : 3 ≤ i.length ∧ i.length ≤ 5 := by
  cases i <;> simp [Instr.length]

/-- The top byte of a 32-bit word built from its opcode down is the opcode. -/
theorem top_byte32 {m n k l : Nat} (op : BitVec 8) (a : BitVec m) (b : BitVec n) (c : BitVec k) (d : BitVec l)
    (h : m + n + k + l = 24) : (op ++ a ++ b ++ c ++ d).extractLsb' 24 8 = op := by
  ext i hi
  simp only [BitVec.getElem_extractLsb', BitVec.getLsbD_append]
  rw [if_neg (by omega), if_neg (by omega), if_neg (by omega), if_neg (by omega), BitVec.getLsbD_eq_getElem (by omega)]
  congr 1
  omega

end Sys2Proof
end

