-- ==== Sys2Proof/Laws/Memory.lean ====
section
/-! SUPPORT. The laws of the data memory: read after write, the frame of a write, the canonical form kept, and equal
reads mean equal memories. -/

namespace Sys2Proof.Machine.Memory

@[simp] theorem read_nil (a : Nat) : Memory.read [] a = 0 := rfl

theorem read_cons (b : Nat) (w : Nat) (m : Memory) (a : Nat) :
    Memory.read ((b, w) :: m) a = if a = b then w else Memory.read m a := rfl

theorem write_nil (a : Nat) (v : Nat) : Memory.write [] a v = if v = 0 then [] else [(a, v)] := rfl

theorem write_cons (b : Nat) (w : Nat) (m : Memory) (a : Nat) (v : Nat) :
    Memory.write ((b, w) :: m) a v =
      if a < b then (if v = 0 then (b, w) :: m else (a, v) :: (b, w) :: m)
      else if a = b then (if v = 0 then m else (a, v) :: m)
      else (b, w) :: Memory.write m a v := rfl

/-- A cell below every listed one reads as unlisted. -/
theorem read_of_lt_all {m : Memory} {a : Nat} (h : ∀ c ∈ m, a < c.1) : Memory.read m a = 0 := by
  induction m with
  | nil => rfl
  | cons c m ih =>
    obtain ⟨b, w⟩ := c
    have hb : a < b := h (b, w) (by simp)
    rw [read_cons, if_neg (by omega)]
    exact ih fun c hc => h c (by simp [hc])

/-- Every entry of a written memory is an old entry or the written one. -/
theorem mem_write {m : Memory} {a : Nat} {v : Nat} {c : Nat × Nat} (h : c ∈ Memory.write m a v) :
    c ∈ m ∨ (c = (a, v) ∧ v ≠ 0) := by
  induction m with
  | nil =>
    rw [write_nil] at h
    split at h
    · simp at h
    · exact .inr ⟨List.mem_singleton.1 h, ‹_›⟩
  | cons d m ih =>
    obtain ⟨b, w⟩ := d
    rw [write_cons] at h
    split at h
    · split at h
      · exact .inl h
      · rcases List.mem_cons.1 h with h | h
        · exact .inr ⟨h, ‹_›⟩
        · exact .inl h
    · split at h
      · split at h
        · exact .inl (List.mem_cons_of_mem _ h)
        · rcases List.mem_cons.1 h with h | h
          · exact .inr ⟨h, ‹_›⟩
          · exact .inl (List.mem_cons_of_mem _ h)
      · rcases List.mem_cons.1 h with rfl | h
        · exact .inl (List.mem_cons_self ..)
        · exact (ih h).imp_left (List.mem_cons_of_mem _)

theorem wf_nil : Memory.wf [] := by simp [Memory.wf]

theorem wf_tail {c : Nat × Nat} {m : Memory} (h : Memory.wf (c :: m)) : Memory.wf m :=
  ⟨(List.pairwise_cons.1 h.1).2, fun d hd => h.2 d (by simp [hd])⟩

theorem wf_head_lt {c : Nat × Nat} {m : Memory} (h : Memory.wf (c :: m)) : ∀ d ∈ m, c.1 < d.1 :=
  (List.pairwise_cons.1 h.1).1

theorem wf_cons {c : Nat × Nat} {m : Memory} (hlt : ∀ d ∈ m, c.1 < d.1) (hc : c.2 ≠ 0) (hm : Memory.wf m) :
    Memory.wf (c :: m) := by
  refine ⟨List.pairwise_cons.2 ⟨hlt, hm.1⟩, fun d hd => ?_⟩
  rcases List.mem_cons.1 hd with rfl | hd
  · exact hc
  · exact hm.2 d hd

/-- A write keeps the canonical form. -/
theorem wf_write {m : Memory} (h : Memory.wf m) (a : Nat) (v : Nat) : Memory.wf (Memory.write m a v) := by
  induction m with
  | nil =>
    rw [write_nil]
    split
    · exact wf_nil
    · exact wf_cons (by simp) ‹_› wf_nil
  | cons d m ih =>
    obtain ⟨b, w⟩ := d
    have hw : w ≠ 0 := h.2 (b, w) (by simp)
    have hlt : ∀ d ∈ m, b < d.1 := wf_head_lt h
    rw [write_cons]
    split
    · rename_i hab
      split
      · exact h
      · rename_i hv
        refine wf_cons (fun d hd => ?_) hv h
        rcases List.mem_cons.1 hd with rfl | hd
        · exact hab
        · have := hlt d hd
          omega
    · split
      · rename_i hab
        subst hab
        split
        · exact wf_tail h
        · rename_i hv
          exact wf_cons hlt hv (wf_tail h)
      · refine wf_cons (fun d hd => ?_) hw (ih (wf_tail h))
        rcases mem_write hd with hd | ⟨rfl, -⟩
        · exact hlt d hd
        · show b < a
          omega

/-- Reading the written cell gives the written value. -/
theorem read_write_self {m : Memory} (h : Memory.wf m) (a : Nat) (v : Nat) :
    Memory.read (Memory.write m a v) a = v := by
  induction m with
  | nil => by_cases hv : v = 0 <;> simp [write_nil, hv, read_cons]
  | cons d m ih =>
    obtain ⟨b, w⟩ := d
    have hlt : ∀ d ∈ m, b < d.1 := wf_head_lt h
    rw [write_cons]
    split
    · rename_i hab
      split
      · rename_i hv
        rw [read_cons, if_neg (by omega), hv]
        exact read_of_lt_all fun c hc => lt_trans hab (hlt c hc)
      · rw [read_cons, if_pos rfl]
    · split
      · rename_i hab
        subst hab
        split
        · rename_i hv
          rw [hv]
          exact read_of_lt_all hlt
        · rw [read_cons, if_pos rfl]
      · rename_i hab
        rw [read_cons, if_neg hab]
        exact ih (wf_tail h)

/-- A write leaves every other cell alone. -/
theorem read_write_of_ne (m : Memory) {a b : Nat} (hba : b ≠ a) (v : Nat) :
    Memory.read (Memory.write m a v) b = Memory.read m b := by
  induction m with
  | nil => by_cases hv : v = 0 <;> simp [write_nil, hv, read_cons, hba]
  | cons d m ih =>
    obtain ⟨k, w⟩ := d
    rw [write_cons]
    split
    · split
      · rfl
      · rw [read_cons, if_neg hba]
    · split
      · rename_i hak
        subst hak
        split
        · rw [read_cons, if_neg hba]
        · rw [read_cons, if_neg hba, read_cons, if_neg hba]
      · rw [read_cons, read_cons, ih]

/-- Every value read satisfies what every entry and an unlisted cell satisfy. -/
theorem read_induction {m : Memory} {p : Nat → Prop} (h0 : p 0) (h : ∀ c ∈ m, p c.2) (a : Nat) :
    p (Memory.read m a) := by
  induction m with
  | nil => exact h0
  | cons d m ih =>
    obtain ⟨b, w⟩ := d
    rw [read_cons]
    split
    · exact h (b, w) (by simp)
    · exact ih fun c hc => h c (by simp [hc])

/-- Two canonical memories that read alike everywhere are equal data. -/
theorem ext_of_read {m n : Memory} (hm : Memory.wf m) (hn : Memory.wf n)
    (h : ∀ a, Memory.read m a = Memory.read n a) : m = n := by
  induction m generalizing n with
  | nil =>
    cases n with
    | nil => rfl
    | cons d n =>
      obtain ⟨b, w⟩ := d
      have := h b
      rw [read_cons, if_pos rfl, read_nil] at this
      exact absurd this.symm (hn.2 (b, w) (by simp))
  | cons c m ih =>
    obtain ⟨a, v⟩ := c
    have hv : v ≠ 0 := hm.2 (a, v) (by simp)
    cases n with
    | nil =>
      have := h a
      rw [read_cons, if_pos rfl, read_nil] at this
      exact absurd this hv
    | cons d n =>
      obtain ⟨b, w⟩ := d
      have hw : w ≠ 0 := hn.2 (b, w) (by simp)
      have hab : a = b := by
        rcases lt_trichotomy a b with hlt | heq | hgt
        · have := h a
          rw [read_cons, if_pos rfl, read_cons, if_neg (by omega),
            read_of_lt_all fun e he => lt_trans hlt (wf_head_lt hn e he)] at this
          exact absurd this hv
        · exact heq
        · have := h b
          rw [read_cons, if_neg (by omega), read_cons, if_pos rfl,
            read_of_lt_all fun e he => lt_trans hgt (wf_head_lt hm e he)] at this
          exact absurd this.symm hw
      subst hab
      have hvw : v = w := by
        have := h a
        rwa [read_cons, if_pos rfl, read_cons, if_pos rfl] at this
      subst hvw
      rw [ih (wf_tail hm) (wf_tail hn) fun e => ?_]
      by_cases hea : e = a
      · subst hea
        rw [read_of_lt_all (wf_head_lt hm), read_of_lt_all (wf_head_lt hn)]
      · have := h e
        rwa [read_cons, if_neg hea, read_cons, if_neg hea] at this

end Sys2Proof.Machine.Memory
end

