-- ==== Sys2Proof/Laws/State.lean ====
section
/-! SUPPORT. What each field of the state is after each operation on it, so that no later proof unfolds a record
update. -/

namespace Sys2Proof.Machine

/-! ### State.writeReg -/

@[simp] theorem State.writeReg_cfg (s : State) (i : Fin 32) (v : Nat) : (s.writeReg i v).cfg = s.cfg := rfl
@[simp] theorem State.writeReg_x (s : State) (i : Fin 32) (v : Nat) : (s.writeReg i v).x = s.x.set i v := rfl
@[simp] theorem State.writeReg_ram (s : State) (i : Fin 32) (v : Nat) : (s.writeReg i v).ram = s.ram := rfl
@[simp] theorem State.writeReg_pc (s : State) (i : Fin 32) (v : Nat) : (s.writeReg i v).pc = s.pc := rfl
@[simp] theorem State.writeReg_run (s : State) (i : Fin 32) (v : Nat) : (s.writeReg i v).run = s.run := rfl
@[simp] theorem State.writeReg_cause (s : State) (i : Fin 32) (v : Nat) : (s.writeReg i v).cause = s.cause := rfl
@[simp] theorem State.writeReg_sub (s : State) (i : Fin 32) (v : Nat) : (s.writeReg i v).sub = s.sub := rfl
@[simp] theorem State.writeReg_faultPc (s : State) (i : Fin 32) (v : Nat) : (s.writeReg i v).faultPc = s.faultPc := rfl
@[simp] theorem State.writeReg_faultAddr (s : State) (i : Fin 32) (v : Nat) : (s.writeReg i v).faultAddr = s.faultAddr := rfl
@[simp] theorem State.writeReg_prog (s : State) (i : Fin 32) (v : Nat) : (s.writeReg i v).prog = s.prog := rfl
@[simp] theorem State.writeReg_trace (s : State) (i : Fin 32) (v : Nat) : (s.writeReg i v).trace = s.trace := rfl

/-! ### State.writeMem -/

@[simp] theorem State.writeMem_cfg (s : State) (a : Nat) (v : Nat) : (s.writeMem a v).cfg = s.cfg := rfl
@[simp] theorem State.writeMem_x (s : State) (a : Nat) (v : Nat) : (s.writeMem a v).x = s.x := rfl
@[simp] theorem State.writeMem_ram (s : State) (a : Nat) (v : Nat) : (s.writeMem a v).ram = s.ram.write a v := rfl
@[simp] theorem State.writeMem_pc (s : State) (a : Nat) (v : Nat) : (s.writeMem a v).pc = s.pc := rfl
@[simp] theorem State.writeMem_run (s : State) (a : Nat) (v : Nat) : (s.writeMem a v).run = s.run := rfl
@[simp] theorem State.writeMem_cause (s : State) (a : Nat) (v : Nat) : (s.writeMem a v).cause = s.cause := rfl
@[simp] theorem State.writeMem_sub (s : State) (a : Nat) (v : Nat) : (s.writeMem a v).sub = s.sub := rfl
@[simp] theorem State.writeMem_faultPc (s : State) (a : Nat) (v : Nat) : (s.writeMem a v).faultPc = s.faultPc := rfl
@[simp] theorem State.writeMem_faultAddr (s : State) (a : Nat) (v : Nat) : (s.writeMem a v).faultAddr = s.faultAddr := rfl
@[simp] theorem State.writeMem_prog (s : State) (a : Nat) (v : Nat) : (s.writeMem a v).prog = s.prog := rfl
@[simp] theorem State.writeMem_trace (s : State) (a : Nat) (v : Nat) : (s.writeMem a v).trace = s.trace := rfl

/-! ### State.raise -/

@[simp] theorem State.raise_cfg (s : State) (e : Exception) : (s.raise e).cfg = s.cfg := rfl
@[simp] theorem State.raise_x (s : State) (e : Exception) : (s.raise e).x = s.x := rfl
@[simp] theorem State.raise_ram (s : State) (e : Exception) : (s.raise e).ram = s.ram := rfl
@[simp] theorem State.raise_pc (s : State) (e : Exception) : (s.raise e).pc = s.pc := rfl
@[simp] theorem State.raise_run (s : State) (e : Exception) : (s.raise e).run = .faulted := rfl
@[simp] theorem State.raise_cause (s : State) (e : Exception) : (s.raise e).cause = exceptionCause e := rfl
@[simp] theorem State.raise_sub (s : State) (e : Exception) : (s.raise e).sub = exceptionSub e := rfl
@[simp] theorem State.raise_faultPc (s : State) (e : Exception) : (s.raise e).faultPc = s.pc := rfl
@[simp] theorem State.raise_faultAddr (s : State) (e : Exception) : (s.raise e).faultAddr = exceptionAddr e := rfl
@[simp] theorem State.raise_prog (s : State) (e : Exception) : (s.raise e).prog = s.prog := rfl
@[simp] theorem State.raise_trace (s : State) (e : Exception) : (s.raise e).trace = s.trace := rfl

/-! ### State.halt -/

@[simp] theorem State.halt_cfg (s : State) : s.halt.cfg = s.cfg := rfl
@[simp] theorem State.halt_x (s : State) : s.halt.x = s.x := rfl
@[simp] theorem State.halt_ram (s : State) : s.halt.ram = s.ram := rfl
@[simp] theorem State.halt_pc (s : State) : s.halt.pc = s.pc := rfl
@[simp] theorem State.halt_run (s : State) : s.halt.run = .halted := rfl
@[simp] theorem State.halt_cause (s : State) : s.halt.cause = s.cause := rfl
@[simp] theorem State.halt_sub (s : State) : s.halt.sub = s.sub := rfl
@[simp] theorem State.halt_faultPc (s : State) : s.halt.faultPc = s.faultPc := rfl
@[simp] theorem State.halt_faultAddr (s : State) : s.halt.faultAddr = s.faultAddr := rfl
@[simp] theorem State.halt_prog (s : State) : s.halt.prog = s.prog := rfl
@[simp] theorem State.halt_trace (s : State) : s.halt.trace = s.trace := rfl

/-! ### State.advance -/

@[simp] theorem State.advance_cfg (s : State) (len : Nat) : (s.advance len).cfg = s.cfg := rfl
@[simp] theorem State.advance_x (s : State) (len : Nat) : (s.advance len).x = s.x := rfl
@[simp] theorem State.advance_ram (s : State) (len : Nat) : (s.advance len).ram = s.ram := rfl
@[simp] theorem State.advance_pc (s : State) (len : Nat) : (s.advance len).pc = s.pc + len := rfl
@[simp] theorem State.advance_run (s : State) (len : Nat) : (s.advance len).run = s.run := rfl
@[simp] theorem State.advance_cause (s : State) (len : Nat) : (s.advance len).cause = s.cause := rfl
@[simp] theorem State.advance_sub (s : State) (len : Nat) : (s.advance len).sub = s.sub := rfl
@[simp] theorem State.advance_faultPc (s : State) (len : Nat) : (s.advance len).faultPc = s.faultPc := rfl
@[simp] theorem State.advance_faultAddr (s : State) (len : Nat) : (s.advance len).faultAddr = s.faultAddr := rfl
@[simp] theorem State.advance_prog (s : State) (len : Nat) : (s.advance len).prog = s.prog := rfl
@[simp] theorem State.advance_trace (s : State) (len : Nat) : (s.advance len).trace = s.trace := rfl

/-! ### State.emit -/

@[simp] theorem State.emit_cfg (s : State) (ev : TraceEvent) : (s.emit ev).cfg = s.cfg := rfl
@[simp] theorem State.emit_x (s : State) (ev : TraceEvent) : (s.emit ev).x = s.x := rfl
@[simp] theorem State.emit_ram (s : State) (ev : TraceEvent) : (s.emit ev).ram = s.ram := rfl
@[simp] theorem State.emit_pc (s : State) (ev : TraceEvent) : (s.emit ev).pc = s.pc := rfl
@[simp] theorem State.emit_run (s : State) (ev : TraceEvent) : (s.emit ev).run = s.run := rfl
@[simp] theorem State.emit_cause (s : State) (ev : TraceEvent) : (s.emit ev).cause = s.cause := rfl
@[simp] theorem State.emit_sub (s : State) (ev : TraceEvent) : (s.emit ev).sub = s.sub := rfl
@[simp] theorem State.emit_faultPc (s : State) (ev : TraceEvent) : (s.emit ev).faultPc = s.faultPc := rfl
@[simp] theorem State.emit_faultAddr (s : State) (ev : TraceEvent) : (s.emit ev).faultAddr = s.faultAddr := rfl
@[simp] theorem State.emit_prog (s : State) (ev : TraceEvent) : (s.emit ev).prog = s.prog := rfl
@[simp] theorem State.emit_trace (s : State) (ev : TraceEvent) : (s.emit ev).trace = ev :: s.trace := rfl

/-! ### State.placeFetch -/

@[simp] theorem State.placeFetch_cfg (s : State) (bytes : List Byte) : (s.placeFetch bytes).cfg = s.cfg := rfl
@[simp] theorem State.placeFetch_x (s : State) (bytes : List Byte) : (s.placeFetch bytes).x = s.x := rfl
@[simp] theorem State.placeFetch_ram (s : State) (bytes : List Byte) : (s.placeFetch bytes).ram = s.ram := rfl
@[simp] theorem State.placeFetch_pc (s : State) (bytes : List Byte) : (s.placeFetch bytes).pc = s.pc := rfl
@[simp] theorem State.placeFetch_run (s : State) (bytes : List Byte) : (s.placeFetch bytes).run = .running := rfl
@[simp] theorem State.placeFetch_cause (s : State) (bytes : List Byte) : (s.placeFetch bytes).cause = .none := rfl
@[simp] theorem State.placeFetch_sub (s : State) (bytes : List Byte) : (s.placeFetch bytes).sub = 0#2 := rfl
@[simp] theorem State.placeFetch_faultPc (s : State) (bytes : List Byte) : (s.placeFetch bytes).faultPc = 0 := rfl
@[simp] theorem State.placeFetch_faultAddr (s : State) (bytes : List Byte) : (s.placeFetch bytes).faultAddr = 0 := rfl
@[simp] theorem State.placeFetch_prog (s : State) (bytes : List Byte) : (s.placeFetch bytes).prog = placeBytes s.prog s.pc bytes := rfl
@[simp] theorem State.placeFetch_trace (s : State) (bytes : List Byte) : (s.placeFetch bytes).trace = s.trace := rfl

/-! ### Reset and the trace's snapshot -/

@[simp] theorem State.resetWith_cfg (cfg : Config) (prog : List Byte) : (State.resetWith cfg prog).cfg = cfg := rfl
@[simp] theorem State.resetWith_x (cfg : Config) (prog : List Byte) : (State.resetWith cfg prog).x = Vector.replicate 32 0 := rfl
@[simp] theorem State.resetWith_ram (cfg : Config) (prog : List Byte) : (State.resetWith cfg prog).ram = [] := rfl
@[simp] theorem State.resetWith_pc (cfg : Config) (prog : List Byte) : (State.resetWith cfg prog).pc = 0 := rfl
@[simp] theorem State.resetWith_run (cfg : Config) (prog : List Byte) : (State.resetWith cfg prog).run = .running := rfl
@[simp] theorem State.resetWith_cause (cfg : Config) (prog : List Byte) : (State.resetWith cfg prog).cause = .none := rfl
@[simp] theorem State.resetWith_sub (cfg : Config) (prog : List Byte) : (State.resetWith cfg prog).sub = 0#2 := rfl
@[simp] theorem State.resetWith_faultPc (cfg : Config) (prog : List Byte) : (State.resetWith cfg prog).faultPc = 0 := rfl
@[simp] theorem State.resetWith_faultAddr (cfg : Config) (prog : List Byte) : (State.resetWith cfg prog).faultAddr = 0 := rfl
@[simp] theorem State.resetWith_prog (cfg : Config) (prog : List Byte) : (State.resetWith cfg prog).prog = prog := rfl
@[simp] theorem State.resetWith_trace (cfg : Config) (prog : List Byte) : (State.resetWith cfg prog).trace = [] := rfl

@[simp] theorem State.snapshot_x (s : State) : s.snapshot.x = s.x := rfl
@[simp] theorem State.snapshot_ram (s : State) : s.snapshot.ram = s.ram := rfl
@[simp] theorem State.snapshot_pc (s : State) : s.snapshot.pc = s.pc := rfl

/-! ### Reading a register or a cell after an operation -/

@[simp] theorem State.readReg_writeReg_self (s : State) (i : Fin 32) (v : Nat) : (s.writeReg i v).readReg i = v := by
  simp [State.readReg]

theorem State.readReg_writeReg_of_ne (s : State) {i j : Fin 32} (h : j ≠ i) (v : Nat) :
    (s.writeReg i v).readReg j = s.readReg j := by
  have : (i : Nat) ≠ j := fun e => h (Fin.ext e.symm)
  simp [State.readReg, Vector.getElem_set_ne _ _ this]

@[simp] theorem State.readMem_writeReg (s : State) (i : Fin 32) (v : Nat) (a : Nat) :
    (s.writeReg i v).readMem a = s.readMem a := rfl

@[simp] theorem State.readReg_writeMem (s : State) (a : Nat) (v : Nat) (i : Fin 32) :
    (s.writeMem a v).readReg i = s.readReg i := rfl

@[simp] theorem State.readReg_raise (s : State) (e : Exception) (i : Fin 32) : (s.raise e).readReg i = s.readReg i := rfl

@[simp] theorem State.readMem_raise (s : State) (e : Exception) (a : Nat) : (s.raise e).readMem a = s.readMem a := rfl

@[simp] theorem State.readReg_resetWith (cfg : Config) (prog : List Byte) (i : Fin 32) :
    (State.resetWith cfg prog).readReg i = 0 := by
  simp [State.readReg]

@[simp] theorem State.readMem_resetWith (cfg : Config) (prog : List Byte) (a : Nat) :
    (State.resetWith cfg prog).readMem a = 0 := rfl

/-- Reading a register or a cell depends on that part of the state alone. -/
theorem State.readReg_congr {s t : State} (h : t.x = s.x) (i : Fin 32) : t.readReg i = s.readReg i := by
  simp [State.readReg, h]

theorem State.readMem_congr {s t : State} (h : t.ram = s.ram) (a : Nat) : t.readMem a = s.readMem a := by
  simp [State.readMem, h]

/-! ### Retiring an instruction (R101): completed, or raised -/

theorem State.retire_of_running {pre t : State} (i : Instr) (h : t.run = .running) :
    pre.retire i t = (t.advance i.length).emit
      { instr := i, pre := pre.snapshot, post := (t.advance i.length).snapshot } := by
  simp [State.retire, h]

theorem State.retire_of_faulted {pre t : State} (i : Instr) (h : t.run = .faulted) : pre.retire i t = t := by
  simp [State.retire, h]

end Sys2Proof.Machine
end

