-- ==== Sys2Proof/Laws/Exec.lean ====
section
/-! SUPPORT. One lemma for each shared operation (bounds check, zero extension, ALU) and for each meaning, saying once
everything it can do. -/

namespace Sys2Proof.Machine

/-! ### The shared operations -/

theorem trunc_lt (n v : Nat) : trunc n v < 2 ^ n := Nat.mod_lt _ (Nat.two_pow_pos n)

theorem trunc_of_lt {n v : Nat} (h : v < 2 ^ n) : trunc n v = v := Nat.mod_eq_of_lt h

theorem zext_lt (n v : Nat) : zext n v < 2 ^ n := trunc_lt n v

/-- A field that fits in a narrower width keeps its number (R12). -/
theorem zext_of_lt {m n v : Nat} (h : v < 2 ^ m) (hmn : m ≤ n) : zext n v = v :=
  trunc_of_lt (lt_of_lt_of_le h (Nat.pow_le_pow_right (by decide) hmn))

@[simp] theorem inBounds_iff (a : Nat) : inBounds a = true ↔ a < 1024 := by simp [inBounds]

@[simp] theorem inBounds_false_iff (a : Nat) : inBounds a = false ↔ 1024 ≤ a := by simp [inBounds]

theorem aluAdd_lt (cfg : Config) (a b : Nat) : aluAdd cfg a b < 2 ^ cfg.W := trunc_lt _ _

theorem boundsChecked_of_lt {a : Nat} (h : a < 1024) (sub : MemSub) (s : State) (k : Result) :
    boundsChecked sub a s k = k := by
  simp [boundsChecked, (inBounds_iff a).2 h]

theorem boundsChecked_of_le {a : Nat} (h : 1024 ≤ a) (sub : MemSub) (s : State) (k : Result) :
    boundsChecked sub a s k = .next (s.raise (.memoryFault sub a)) := by
  simp [boundsChecked, (inBounds_false_iff a).2 h]

/-- The bounds check goes on in bounds, and raises the named fault otherwise. -/
theorem boundsChecked_cases {sub : MemSub} {a : Nat} {s t : State} {k : Result}
    (h : boundsChecked sub a s k = .next t) :
    (a < 1024 ∧ k = .next t) ∨ (1024 ≤ a ∧ t = s.raise (.memoryFault sub a)) := by
  rcases lt_or_ge a 1024 with ha | ha
  · exact .inl ⟨ha, by rwa [boundsChecked_of_lt ha] at h⟩
  · rw [boundsChecked_of_le ha] at h
    exact .inr ⟨ha, (Host.Outcome.next.inj h).symm⟩

/-! ### The meanings -/

theorem execLoad_cases {const : Nat} {reg : Fin 32} {s t : State} (h : execLoad const reg s = .next t) :
    t = s.writeReg reg (zext s.cfg.W const) :=
  (Host.Outcome.next.inj h).symm

theorem execRead_cases {srcReg dstReg : Fin 32} {offset : Nat} {s t : State}
    (h : execRead srcReg offset dstReg s = .next t) :
    (s.readReg srcReg + offset < 1024 ∧ t = s.writeReg dstReg (s.readMem (s.readReg srcReg + offset))) ∨
    (1024 ≤ s.readReg srcReg + offset ∧ t = s.raise (.memoryFault .read (s.readReg srcReg + offset))) :=
  (boundsChecked_cases h).imp_left fun ⟨ha, hk⟩ => ⟨ha, (Host.Outcome.next.inj hk).symm⟩

theorem execWrite_cases {srcReg dstReg : Fin 32} {s t : State} (h : execWrite srcReg dstReg s = .next t) :
    (s.readReg dstReg < 1024 ∧ t = s.writeMem (s.readReg dstReg) (s.readReg srcReg)) ∨
    (1024 ≤ s.readReg dstReg ∧ t = s.raise (.memoryFault .write (s.readReg dstReg))) :=
  (boundsChecked_cases h).imp_left fun ⟨ha, hk⟩ => ⟨ha, (Host.Outcome.next.inj hk).symm⟩

theorem execAdd_cases {srcReg addrReg : Fin 32} {addr : Nat} {s t : State}
    (h : execAdd srcReg addr addrReg s = .next t) :
    (s.readReg addrReg < 1024 ∧ addr < 1024 ∧
      t = s.writeMem addr (aluAdd s.cfg (s.readReg srcReg) (s.readMem (s.readReg addrReg)))) ∨
    (1024 ≤ s.readReg addrReg ∧ t = s.raise (.memoryFault .addRead (s.readReg addrReg))) ∨
    (s.readReg addrReg < 1024 ∧ 1024 ≤ addr ∧ t = s.raise (.memoryFault .addWrite addr)) := by
  rcases boundsChecked_cases h with ⟨hr, hk⟩ | ⟨hr, ht⟩
  · rcases boundsChecked_cases hk with ⟨hw, hn⟩ | ⟨hw, ht⟩
    · exact .inl ⟨hr, hw, (Host.Outcome.next.inj hn).symm⟩
    · exact .inr (.inr ⟨hr, hw, ht⟩)
  · exact .inr (.inl ⟨hr, ht⟩)

/-- A bounds check before something that answers a next state answers a next state. -/
theorem boundsChecked_answers {sub : MemSub} {a : Nat} {s : State} {k : Result} (hk : ∃ t, k = .next t) :
    ∃ t, boundsChecked sub a s k = .next t := by
  rcases lt_or_ge a 1024 with ha | ha
  · rwa [boundsChecked_of_lt ha]
  · exact ⟨_, boundsChecked_of_le ha ..⟩

/-- No instruction stops: it completes, or it enters the Faulted state (R151). -/
theorem exec_answers (i : Instr) (s : State) : ∃ t, exec i s = .next t := by
  cases i with
  | load const reg => exact ⟨_, rfl⟩
  | read srcReg offset dstReg => exact boundsChecked_answers ⟨_, rfl⟩
  | write srcReg dstReg => exact boundsChecked_answers ⟨_, rfl⟩
  | add srcReg addr addrReg => exact boundsChecked_answers (boundsChecked_answers ⟨_, rfl⟩)

end Sys2Proof.Machine
end

