-- ==== Sys2Proof/Laws/PerInstr.lean ====
section
/-! SUPPORT. Statements about every instruction as syntax, made constructor by constructor. -/

namespace Sys2Proof.Laws.EncodedForm

/-- The encoder gives an instruction as many bytes as its format has, the first of them its opcode (R60, R75). -/
def Statement (i : Instr) : Prop := (encode i).length = i.length ∧ (encode i).head? = some i.opcode

theorem load (const : Nat) (reg : Fin 32) : Statement (.load const reg) := ⟨rfl, rfl⟩

theorem read (srcReg : Fin 32) (offset : Nat) (dstReg : Fin 32) : Statement (.read srcReg offset dstReg) :=
  ⟨rfl, congrArg some (top_byte32 _ _ _ _ _ rfl)⟩

theorem write (srcReg dstReg : Fin 32) : Statement (.write srcReg dstReg) := by
  refine ⟨rfl, congrArg some ?_⟩
  ext i hi
  simp only [BitVec.getElem_extractLsb', BitVec.getLsbD_append]
  rw [if_neg (by omega), if_neg (by omega), if_neg (by omega), BitVec.getLsbD_eq_getElem (by omega)]
  congr 1
  omega

theorem add (srcReg : Fin 32) (addr : Nat) (addrReg : Fin 32) : Statement (.add srcReg addr addrReg) :=
  ⟨rfl, congrArg some (top_byte32 _ _ _ _ _ rfl)⟩

end Sys2Proof.Laws.EncodedForm
end

