-- ==== Sys2Proof/Laws/Step.lean ====
section
/-! SUPPORT. What one step can do, said once, and the one step of an enabled state. -/

namespace Sys2Proof.Machine

/-- Every way a step answers a next state: the parameters are the spec's, the state is Running, and the step halts at
the end of the buffer, enters the Faulted state on an illegal instruction, or executes and retires one instruction. -/
theorem step_cases {s t : State} (h : step s = .next t) :
    s.Enabled ∧
    ((s.pc = s.prog.length ∧ t = s.halt) ∨
     (s.pc < s.prog.length ∧ ∃ e, decode s.cfg.rsvPolicy (s.prog.drop s.pc) = .error e ∧
        t = s.raise (.illegalInstruction e)) ∨
     (s.pc < s.prog.length ∧ ∃ i u, decode s.cfg.rsvPolicy (s.prog.drop s.pc) = .ok i ∧ exec i s = .next u ∧
        t = s.retire i u)) := by
  unfold step at h
  split at h
  · simp at h
  · split at h
    · simp at h
    · rename_i hW hL
      split at h
      · rename_i hrun
        refine ⟨⟨not_lt.1 hW, not_lt.1 hL, hrun⟩, ?_⟩
        unfold stepRunning at h
        split at h
        · exact .inl ⟨‹_›, (Host.Outcome.next.inj h).symm⟩
        · split at h
          · simp at h
          · have hpc : s.pc < s.prog.length := by omega
            split at h
            · exact .inr (.inl ⟨hpc, _, ‹_›, (Host.Outcome.next.inj h).symm⟩)
            · obtain ⟨u, hu⟩ := exec_answers ‹Instr› s
              rw [hu] at h
              exact .inr (.inr ⟨hpc, _, u, ‹_›, hu, (Host.Outcome.next.inj h).symm⟩)
      · simp at h
      · simp at h

theorem step_of_enabled {s : State} (h : s.Enabled) : step s = stepRunning s := by
  have h1 : ¬ s.cfg.W < 25 := not_lt.2 h.minW
  have h2 : ¬ s.cfg.progMax < s.prog.length := not_lt.2 h.progFits
  simp [step, h1, h2, h.running]

theorem stepRunning_of_end {s : State} (hpc : s.pc = s.prog.length) : stepRunning s = .next s.halt := by
  simp [stepRunning, hpc]

theorem stepRunning_of_error {s : State} (hpc : s.pc < s.prog.length) {e : IllegalSub}
    (he : decode s.cfg.rsvPolicy (s.prog.drop s.pc) = .error e) :
    stepRunning s = .next (s.raise (.illegalInstruction e)) := by
  simp [stepRunning, hpc.ne, hpc.not_gt, he]

theorem stepRunning_of_ok {s t : State} (hpc : s.pc < s.prog.length) {i : Instr}
    (hi : decode s.cfg.rsvPolicy (s.prog.drop s.pc) = .ok i) (ht : exec i s = .next t) :
    stepRunning s = .next (s.retire i t) := by
  simp [stepRunning, hpc.ne, hpc.not_gt, hi, ht]

/-- What retiring an instruction does, by how it ended. -/
theorem exec_run {i : Instr} {s t : State} (h : exec i s = .next t) :
    (¬ addressRefused s i ∧ t.run = s.run) ∨ (addressRefused s i ∧ t.run = .faulted) := by
  cases i with
  | load const reg =>
    rw [execLoad_cases h]
    exact .inl ⟨id, rfl⟩
  | read srcReg offset dstReg =>
    rcases execRead_cases h with ⟨ha, rfl⟩ | ⟨ha, rfl⟩
    · exact .inl ⟨not_le.2 ha, rfl⟩
    · exact .inr ⟨ha, rfl⟩
  | write srcReg dstReg =>
    rcases execWrite_cases h with ⟨ha, rfl⟩ | ⟨ha, rfl⟩
    · exact .inl ⟨not_le.2 ha, rfl⟩
    · exact .inr ⟨ha, rfl⟩
  | add srcReg addr addrReg =>
    rcases execAdd_cases h with ⟨hr, hw, rfl⟩ | ⟨hr, rfl⟩ | ⟨hr, hw, rfl⟩
    · exact .inl ⟨not_or.2 ⟨not_le.2 hr, not_le.2 hw⟩, rfl⟩
    · exact .inr ⟨.inl hr, rfl⟩
    · exact .inr ⟨.inr hw, rfl⟩

end Sys2Proof.Machine
end

