-- ==== Sys2Proof/Tests/Slice0.lean ====
section
/-! SUPPORT. The model's own tests, expected results from spec/95_test_vectors.md, and for every statement with
hypotheses a concrete input that meets them. -/

namespace Sys2Proof.Tests

open Sys2Proof.Machine

/-! ### Helpers -/

/-- A machine right after reset with a program: `W = 32` and `trap`, as the spec's vectors have. -/
def machine (prog : List Byte) : State := State.resetWith Config.reference prog

/-- The next state of a step, or the state itself where there is none. -/
def after (s : State) : State :=
  match step s with
  | .next t => t
  | .fault _ => s
  | .refused _ => s

/-- The next state of one instruction's meaning, or the state itself where there is none. -/
def afterExec (i : Instr) (s : State) : State :=
  match exec i s with
  | .next t => t
  | .fault _ => s
  | .refused _ => s

/-! ### WellFormed refuses what does not fit (R66) -/

theorem test_wellFormed_accepts_widest : Instr.wellFormed (.load 33554431 31) = true ∧
    Instr.wellFormed (.read 31 127 31) = true ∧ Instr.wellFormed (.write 31 31) = true ∧
    Instr.wellFormed (.add 31 4095 31) = true := by decide
theorem test_wellFormed_refuses_wide_const : Instr.wellFormed (.load 33554432 1) = false := by decide
theorem test_wellFormed_refuses_wide_offset : Instr.wellFormed (.read 1 128 2) = false := by decide
theorem test_wellFormed_refuses_wide_addr : Instr.wellFormed (.add 1 4096 2) = false := by decide

/-! ### Decoding words written out from R61 to R64 (95_test_vectors.md sections 2.1, 2.2) -/

theorem test_decode_load : decode .trap [0x43#8, 0xEF#8, 0xCD#8, 0xAB#8, 0x23#8] = .ok (.load 28036591 17) ∧
    decode .trap [0x43#8, 0x00#8, 0x00#8, 0x00#8, 0x01#8] = .ok (.load 16777216 0) := by decide
theorem test_decode_read : decode .trap [0xC8#8, 0xAA#8, 0x55#8, 0x00#8] = .ok (.read 21 37 10) ∧
    decode .trap [0xC8#8, 0x00#8, 0x00#8, 0x80#8] = .ok (.read 0 0 1) := by decide
theorem test_decode_write : decode .trap [0x50#8, 0xAA#8, 0x80#8] = .ok (.write 21 10) ∧
    decode .trap [0x50#8, 0x09#8, 0xC0#8] = .ok (.write 1 7) := by decide
theorem test_decode_add : decode .trap [0xB2#8, 0xAA#8, 0xAA#8, 0xA8#8] = .ok (.add 21 1365 10) ∧
    decode .trap [0xB2#8, 0x1A#8, 0x00#8, 0x10#8] = .ok (.add 3 1024 4) := by decide
theorem test_decode_refuses_by_name : decode .trap [0x42#8, 0#8, 0#8, 0#8, 0#8] = .error .unknownOpcode ∧
    decode .trap [0x4F#8] = .error .unknownOpcode ∧ decode .ignore [0x43#8, 0#8, 0#8, 0#8] = .error .truncated ∧
    decode .trap [0xC8#8, 0#8, 0#8, 0x01#8] = .error .reservedBits ∧
    decode .trap [0x50#8, 0#8, 0x20#8] = .error .reservedBits ∧
    decode .trap [0xB2#8, 0#8, 0#8, 0x02#8] = .error .reservedBits ∧
    decode .trap [0x43#8, 0#8, 0#8, 0#8, 0x40#8] = .error .reservedBits := by decide
theorem test_decode_ignores_reserved_bits : decode .ignore [0xC8#8, 0xFF#8, 0xFF#8, 0xFF#8] = .ok (.read 31 127 31) ∧
    decode .ignore [0x43#8, 0#8, 0#8, 0#8, 0xC0#8] = .ok (.load 0 0) := by decide
theorem test_encode_masks_fields : encodeLoad (-1) 1 = [0x43#8, 0xFF#8, 0xFF#8, 0xFF#8, 0x03#8] ∧
    encodeRead 1 200 2 = [0xC8#8, 0x0C#8, 0x81#8, 0x00#8] ∧ encodeWrite 33 34 = [0x50#8, 0x08#8, 0x80#8] ∧
    encodeAdd 2 (-1) 3 = [0xB2#8, 0x17#8, 0xFF#8, 0x8C#8] := by decide
/-- The words are the rows' "match" of spec/opcode_table.json with fields filled in: `43 0A 00 00 02`, `C8 10 02 00`,
`50 08 80`, `B2 08 03 88` (R91). -/
theorem test_table_words : decodeTableWord 40 0x430A000002 = some (.load 10 1) ∧
    decodeTableWord 32 0xC8100200 = some (.read 2 0 4) ∧ decodeTableWord 24 0x500880 = some (.write 1 2) ∧
    decodeTableWord 32 0xB2080388 = some (.add 1 7 2) ∧ decodeTableWord 24 0x010000 = none := by decide
theorem test_program_wellFormed : programWellFormed .trap [0x43#8, 1#8, 0#8, 0#8, 2#8, 0x50#8, 0x08#8, 0x00#8] = true ∧
    programWellFormed .trap [0x43#8, 1#8, 0#8, 0#8, 2#8, 0x43#8, 0#8, 0#8] = false := by decide

/-! ### One step of each instruction (95_test_vectors.md sections 2.4 to 2.8) -/

theorem test_load_bit24 : (after (machine [0x43#8, 0#8, 0#8, 0#8, 0x03#8])).readReg 1 = 16777216 ∧
    (after (machine [0x43#8, 0#8, 0#8, 0#8, 0x03#8])).pc = 5 := by decide
theorem test_read_old_base :
    (after (((machine [0xC8#8, 0x08#8, 0x00#8, 0x80#8]).writeReg 1 5).writeMem 5 9)).readReg 1 = 9 := by decide
theorem test_read_never_wraps :
    let t := after ((machine [0xC8#8, 0x08#8, 0x11#8, 0x00#8]).writeReg 1 4294967295)
    t.run = .faulted ∧ t.cause = .memoryFault ∧ t.sub = 0#2 ∧ t.faultAddr = 4294967296 ∧ t.pc = 0 := by decide
theorem test_write_last_cell :
    let t := after (((machine [0x50#8, 0x08#8, 0x80#8]).writeReg 1 4).writeReg 2 1023)
    t.readMem 1023 = 4 ∧ t.pc = 3 ∧ t.run = .running := by decide
theorem test_write_faults :
    let t := after (((machine [0x50#8, 0x08#8, 0x80#8]).writeReg 1 4).writeReg 2 1024)
    t.run = .faulted ∧ t.sub = 1#2 ∧ t.faultAddr = 1024 ∧ t.ram = [] ∧ t.pc = 0 := by decide
theorem test_add_wraps :
    (after (((machine [0xB2#8, 0x08#8, 0x00#8, 0x88#8]).writeReg 1 4294967295).writeMem 0 4294967295)).readMem 1 =
      4294967294 := by decide
theorem test_add_read_fault_first :
    let t := after ((machine [0xB2#8, 0x1A#8, 0x00#8, 0x10#8]).writeReg 4 2000)
    t.run = .faulted ∧ t.sub = 2#2 ∧ t.faultAddr = 2000 := by decide
theorem test_empty_program_halts : (after State.reset).run = .halted ∧ (after State.reset).pc = 0 := by decide
theorem test_word_64_does_not_wrap :
    (after ((({ machine [0xB2#8, 0x08#8, 0x00#8, 0x88#8] with cfg := { Config.reference with W := 64 } } : State).writeReg
      1 4294967295).writeMem 0 4294967295)).readMem 1 = 8589934590 := by decide
theorem test_placed_words_run : (after (State.reset.withFetchWord 40 0x430A000002)).readReg 1 = 10 ∧
    (after (State.reset.withFetchWord 32 0xC8100200)).pc = 4 ∧ (after (State.reset.withFetchWord 24 0x500880)).pc = 3 ∧
    (after (State.reset.withFetchWord 32 0xB2080388)).pc = 4 := by decide

/-! ### The assembler (95_test_vectors.md sections 2.3, 2.9) -/

theorem test_assemble_comment_and_spaces :
    assembleBytes "LOAD 5 , R007 ; set R7\n\n; only a comment\nWRITE R1,R0".toList =
      .ok [0x43#8, 5#8, 0#8, 0#8, 0x0E#8, 0x50#8, 0x08#8, 0x00#8] := by decide
theorem test_assemble_reports_line :
    assembleBytes "LOAD 1,R1\nFOO\nLOAD 2,R2".toList = .error ⟨2, .unknownMnemonic⟩ := by decide
theorem test_assemble_error_order : assembleLine "load 5,R1".toList = .error .unknownMnemonic ∧
    assembleLine "LOAD x".toList = .error .arityError ∧ assembleLine "LOAD 5,7".toList = .error (.invalidOperand "7".toList) ∧
    assembleLine "READ R32,x,R1".toList = .error (.invalidOperand "R32".toList) ∧
    assembleLine "LOAD 0x10,R1".toList = .error (.invalidOperand "0x10".toList) := by decide

/-- Entry 13's own choices: an indented line, and empty operands beside a comma. -/
theorem test_assemble_choices : assembleLine "  WRITE R1,R2".toList = .ok (some (.write 1 2)) ∧
    assembleLine "WRITE R1,R2,".toList = .error .arityError ∧
    assembleLine "LOAD ,R1".toList = .error (.invalidOperand []) := by decide

/-! ### Inputs that meet the statements' hypotheses -/

/-- `ADD R1,4,R2` on its own, with `x1 = 3`, `x2 = 4`, `ram[4] = 10` (R142). -/
def adding : State := (((machine [0xB2#8, 0x08#8, 0x02#8, 0x08#8]).writeReg 1 3).writeReg 2 4).writeMem 4 10

/-- `WRITE R1,R2` on its own, with `x1 = 4`, `x2 = 1023` (R131). -/
def writing : State := ((machine [0x50#8, 0x08#8, 0x80#8]).writeReg 1 4).writeReg 2 1023

/-- `READ R1,127,R2` on its own, with `x1 = 896` (R125). -/
def reading : State := (machine [0xC8#8, 0x0F#8, 0xF1#8, 0x00#8]).writeReg 1 896

/-- The same with `x1 = 897`: the address is 1024. -/
def readingPast : State := (machine [0xC8#8, 0x0F#8, 0xF1#8, 0x00#8]).writeReg 1 897

/-- `LOAD 33554431,R31` on its own. -/
def loading : State := machine [0x43#8, 0xFF#8, 0xFF#8, 0xFF#8, 0x3F#8]

/-- A program that starts with an unassigned opcode. -/
def illegal : State := machine [0x01#8]

theorem adding_enabled : adding.Enabled := ⟨by decide, by decide, rfl⟩
theorem readingPast_enabled : readingPast.Enabled := ⟨by decide, by decide, rfl⟩
theorem writing_enabled : writing.Enabled := ⟨by decide, by decide, rfl⟩
theorem illegal_enabled : illegal.Enabled := ⟨by decide, by decide, rfl⟩
theorem reset_enabled : State.reset.Enabled := ⟨by decide, by decide, rfl⟩

theorem witness_ResetStartsEveryRunFresh : ∃ s t : State, s.cfg = t.cfg ∧ s.prog = t.prog ∧ s ≠ t :=
  ⟨loading, after loading, by decide⟩

/-- The narrowest register, and a program that fills the buffer. -/
theorem witness_ResetSatisfiesInvariant : ∃ (cfg : Config) (prog : List Byte), 25 ≤ cfg.W ∧ prog.length ≤ cfg.progMax :=
  ⟨⟨25, 3, .ignore⟩, [0x50#8, 0#8, 0#8], by decide⟩

theorem witness_StepRunsTheDecodedInstruction_end : State.reset.Enabled ∧ State.reset.pc = State.reset.prog.length :=
  ⟨reset_enabled, rfl⟩
theorem witness_StepRunsTheDecodedInstruction_illegal : illegal.Enabled ∧ illegal.pc < illegal.prog.length ∧
    decode illegal.cfg.rsvPolicy (illegal.prog.drop illegal.pc) = .error .unknownOpcode :=
  ⟨illegal_enabled, by decide, by decide⟩
theorem witness_StepRunsTheDecodedInstruction_completes : adding.Enabled ∧ adding.pc < adding.prog.length ∧
    decode adding.cfg.rsvPolicy (adding.prog.drop adding.pc) = .ok (.add 1 4 2) ∧ ¬ addressRefused adding (.add 1 4 2) :=
  ⟨adding_enabled, by decide, by decide, by unfold addressRefused; decide⟩
theorem witness_StepRunsTheDecodedInstruction_faults : readingPast.Enabled ∧ readingPast.pc < readingPast.prog.length ∧
    decode readingPast.cfg.rsvPolicy (readingPast.prog.drop readingPast.pc) = .ok (.read 1 127 2) ∧
    addressRefused readingPast (.read 1 127 2) :=
  ⟨readingPast_enabled, by decide, by decide, by unfold addressRefused; decide⟩

/-- A state each of: a step that answers, Halted, Faulted. -/
theorem witness_NoStepOnceTheRunHasEnded : step loading = .next (after loading) ∧
    (25 ≤ (after State.reset).cfg.W ∧ (after State.reset).prog.length ≤ (after State.reset).cfg.progMax ∧
      (after State.reset).run = .halted) ∧
    25 ≤ (after illegal).cfg.W ∧ (after illegal).prog.length ≤ (after illegal).cfg.progMax ∧
      (after illegal).run = .faulted :=
  ⟨rfl, by decide, by decide⟩

/-- A step to the end of the buffer, still Running; the narrowest register. -/
theorem witness_NormalHaltExactlyAtProgramEnd : (∃ cfg : Config, 25 ≤ cfg.W) ∧ step loading = .next (after loading) ∧
    (after loading).run = .running ∧ (after loading).pc = (after loading).prog.length :=
  ⟨⟨⟨25, 0, .trap⟩, by decide⟩, rfl, by decide, by decide⟩

theorem witness_PcNeverPassesProgramEnd : loading.pc ≤ loading.prog.length ∧ step loading = .next (after loading) ∧
    decode loading.cfg.rsvPolicy (loading.prog.drop loading.pc) = .ok (.load 33554431 31) :=
  ⟨by decide, rfl, by decide⟩

/-- A step that goes on, and one that faults, as PcMovesOnlyByInstructionLength, OneTraceEventPerCompletedInstruction,
EveryRunEnds and FaultsArePrecise have. -/
theorem witness_PcMovesOnlyByInstructionLength : exec (.add 1 4 2) adding = .next (afterExec (.add 1 4 2) adding) ∧
    (step adding = .next (after adding) ∧ (after adding).run = .running) ∧
    step readingPast = .next (after readingPast) ∧ (after readingPast).run ≠ .running :=
  ⟨rfl, ⟨rfl, by decide⟩, rfl, by decide⟩
theorem witness_OneTraceEventPerCompletedInstruction : (step writing = .next (after writing) ∧
      (after writing).run = .running) ∧
    step readingPast = .next (after readingPast) ∧ (after readingPast).run ≠ .running :=
  ⟨⟨rfl, by decide⟩, rfl, by decide⟩

/-- A state of the invariant that is not a reset state: one LOAD executed, a cell written, at the end of its buffer. -/
def midRun : State := (after loading).writeMem 1023 4294967295

theorem midRun_inv : midRun.Inv := by constructor <;> decide

theorem witness_EveryRunEnds : midRun.Inv ∧ step loading = .next (after loading) ∧ (after loading).run = .running :=
  ⟨midRun_inv, rfl, by decide⟩
theorem witness_StepKeepsInvariant : midRun.Inv ∧ step midRun = .next (after midRun) := ⟨midRun_inv, rfl⟩
theorem witness_StepKeepsTraceLinked : traceLinked (after loading).trace (after loading).snapshot ∧
    step (after loading) = .next (after (after loading)) :=
  ⟨⟨rfl, rfl⟩, rfl⟩

theorem witness_UnassignedOpcodesAreIllegal : illegal.Enabled ∧ illegal.prog.drop illegal.pc = 0x01#8 :: [] ∧
    0x01#8 ∉ [0x43#8, 0xB2#8, 0x50#8, 0xC8#8] :=
  ⟨illegal_enabled, rfl, by decide⟩
theorem witness_TruncatedExactlyWhenBytesAreMissing :
    (0x50#8, 3) ∈ [(0x43#8, 5), (0xC8#8, 4), (0x50#8, 3), (0xB2#8, 4)] := by decide
/-- Bytes with a reserved bit set that decode under `ignore`, and bytes with none set. -/
theorem witness_ReservedBitsFollowPolicy :
    (clearReserved [0x50#8, 0#8, 0x20#8] ≠ [0x50#8, 0#8, 0x20#8] ∧ decode .ignore [0x50#8, 0#8, 0x20#8] = .ok (.write 0 0)) ∧
    clearReserved [0x50#8, 0#8, 0x40#8] = [0x50#8, 0#8, 0x40#8] := by decide
theorem witness_DecodeOfEncodeIsIdentity : Instr.wellFormed (.add 31 4095 31) = true := by decide
theorem witness_EncodeOfDecodeIsIdentity : decode .trap [0xC8#8, 0xFF#8, 0xFF#8, 0x80#8] = .ok (.read 31 127 31) := by
  decide
/-- Each clause: bytes accepted; an unassigned opcode; a reserved bit set; two bytes missing, and as many with others
after the opcode. -/
theorem witness_DecodeReadsOnlyItsOwnBytes : decode .trap [0x50#8, 0xFF#8, 0xC0#8] = .ok (.write 31 31) ∧
    decode .trap [0x51#8, 0xFF#8] = .error .unknownOpcode ∧
    ((0x50#8, 3) ∈ [(0x43#8, 5), (0xC8#8, 4), (0x50#8, 3), (0xB2#8, 4)] ∧
      [0x50#8, 0xFF#8, 0xC1#8].head? = some 0x50#8 ∧ decode .trap [0x50#8, 0xFF#8, 0xC1#8] = .error .reservedBits) ∧
    decode .trap [0xC8#8, 0#8] = .error .truncated ∧
    [0xC8#8, 0#8].length = ([0xC8#8, 0#8].take 1 ++ [0xFF#8]).length := by decide
theorem witness_PlacedTableWordIsRun : 25 ≤ State.reset.cfg.W ∧ State.reset.cfg.rsvPolicy = .trap ∧ 40 ≤ 40 ∧
    State.reset.prog.length ≤ State.reset.cfg.progMax ∧ State.reset.pc + 5 ≤ State.reset.cfg.progMax ∧
    decodeTableWord 40 0x430A000002 = some (.load 10 1) := by decide

theorem witness_LoadWritesItsConstant : 25 ≤ (⟨25, 5, .trap⟩ : Config).W ∧ 33554431 < 2 ^ 25 := by decide
theorem witness_ReadLoadsTheAddressedCell : reading.readReg 1 + 127 < 1024 := by decide
theorem witness_ReadOutOfBoundsFaults : 1024 ≤ readingPast.readReg 1 + 127 := by decide
theorem witness_WriteStoresTheRegister : writing.ram.wf ∧ writing.readReg 2 < 1024 := by decide
theorem witness_WriteOutOfBoundsFaults : 1024 ≤ (writing.writeReg 2 1024).readReg 2 := by decide
theorem witness_AddStoresTheSum : adding.ram.wf ∧ adding.readReg 2 < 1024 ∧ 1023 < 1024 := by decide
/-- Both clauses: the read address refused; the read address in bounds and `addr` refused. -/
theorem witness_AddFaultsReadAddressFirst : 1024 ≤ (adding.writeReg 2 1024).readReg 2 ∧
    adding.readReg 2 < 1024 ∧ 1024 ≤ 4095 := by decide

/-- An ADD whose sum is just below `2^32`, one whose sum is `2^32`, and the first with its addends swapped. -/
def addingHigh : State := (adding.writeReg 1 4294967285)
def addingOver : State := (adding.writeReg 1 4294967286)
def addingSwapped : State := (adding.writeReg 1 10).writeMem 4 4294967285

theorem witness_AddIsExactBelowOverflow : addingHigh.ram.wf ∧ addingHigh.readReg 1 < 2 ^ addingHigh.cfg.W ∧
    addingHigh.readMem (addingHigh.readReg 2) < 2 ^ addingHigh.cfg.W ∧ addingHigh.readReg 2 < 1024 ∧
    addingHigh.readReg 1 + addingHigh.readMem (addingHigh.readReg 2) < 2 ^ addingHigh.cfg.W ∧
    addingSwapped.cfg = addingHigh.cfg ∧ addingSwapped.ram.wf ∧ addingSwapped.readReg 2 < 1024 ∧
    addingSwapped.readReg 1 = addingHigh.readMem (addingHigh.readReg 2) ∧
    addingSwapped.readMem (addingSwapped.readReg 2) = addingHigh.readReg 1 := by decide
theorem witness_AddIsExactBelowOverflow_over : addingOver.ram.wf ∧ addingOver.readReg 1 < 2 ^ addingOver.cfg.W ∧
    addingOver.readMem (addingOver.readReg 2) < 2 ^ addingOver.cfg.W ∧ addingOver.readReg 2 < 1024 ∧
    2 ^ addingOver.cfg.W ≤ addingOver.readReg 1 + addingOver.readMem (addingOver.readReg 2) := by decide
theorem witness_AddIsExactBelowOverflow_exec :
    exec (.add 1 4 2) addingHigh = .next (afterExec (.add 1 4 2) addingHigh) ∧
    exec (.add 1 4 2) addingOver = .next (afterExec (.add 1 4 2) addingOver) ∧
    exec (.add 1 4 2) addingSwapped = .next (afterExec (.add 1 4 2) addingSwapped) := ⟨rfl, rfl, rfl⟩

theorem witness_RegisterFormsFrame : exec (.load 7 1) loading = .next (afterExec (.load 7 1) loading) ∧
    (exec (.read 1 127 2) reading = .next (afterExec (.read 1 127 2) reading) ∧
      inBounds (readAddress reading 1 127) = true) ∧
    exec (.read 1 127 2) readingPast = .next (afterExec (.read 1 127 2) readingPast) ∧
      inBounds (readAddress readingPast 1 127) = false :=
  ⟨rfl, ⟨rfl, by decide⟩, rfl, by decide⟩
theorem witness_StoringFormsFrame : (exec (.write 1 2) writing = .next (afterExec (.write 1 2) writing) ∧
      inBounds (writeAddress writing 2) = true) ∧
    (exec (.add 1 4 2) adding = .next (afterExec (.add 1 4 2) adding) ∧ inBounds (addReadAddress adding 2) = true ∧
      inBounds (addWriteAddress 4) = true) ∧
    exec (.add 1 1024 2) adding = .next (afterExec (.add 1 1024 2) adding) ∧ inBounds (addWriteAddress 1024) = false :=
  ⟨⟨rfl, by decide⟩, ⟨rfl, by decide⟩, rfl, by decide⟩

/-- Two states that differ in a register the instruction does not read. -/
theorem witness_InstructionsUseOnlyTheirRegisters : adding.cfg = (adding.writeReg 9 9).cfg ∧
    adding.ram = (adding.writeReg 9 9).ram ∧ adding.run = (adding.writeReg 9 9).run ∧ adding ≠ adding.writeReg 9 9 ∧
    (∀ r ∈ registersRead (.add 1 4 2), adding.readReg r = (adding.writeReg 9 9).readReg r) ∧
    (5 : Fin 32) ∉ registersWritten (.read 1 0 2) := by decide
theorem witness_InstructionsUseOnlyTheirRegisters_exec :
    exec (.add 1 4 2) adding = .next (afterExec (.add 1 4 2) adding) ∧
    exec (.add 1 4 2) (adding.writeReg 9 9) = .next (afterExec (.add 1 4 2) (adding.writeReg 9 9)) := ⟨rfl, rfl⟩

theorem witness_OnlyLoadAndReadChangeRegisters : step loading = .next (after loading) ∧
    (after loading).readReg 31 ≠ loading.readReg 31 := ⟨rfl, by decide⟩
theorem witness_OnlyWriteAndAddChangeCells : step writing = .next (after writing) ∧
    (after writing).readMem 1023 ≠ writing.readMem 1023 := ⟨rfl, by decide⟩
theorem witness_ProgramBufferIsNeverWritten : step writing = .next (after writing) ∧
    exec (.write 1 2) writing = .next (afterExec (.write 1 2) writing) := ⟨rfl, rfl⟩
/-- Two machines that differ in a register: both complete a WRITE; both refuse an unassigned opcode; both halt. -/
theorem witness_FetchDoesNotDependOnData : writing.cfg = (writing.writeReg 2 0).cfg ∧
    writing.prog = (writing.writeReg 2 0).prog ∧ writing.pc = (writing.writeReg 2 0).pc ∧
    step writing = .next (after writing) ∧ step (writing.writeReg 2 0) = .next (after (writing.writeReg 2 0)) ∧
    (after writing).run = .running ∧ (after (writing.writeReg 2 0)).run = .running :=
  ⟨by decide, by decide, by decide, rfl, rfl, by decide, by decide⟩
theorem witness_FetchDoesNotDependOnData_illegal : step illegal = .next (after illegal) ∧
    step (illegal.writeReg 2 7) = .next (after (illegal.writeReg 2 7)) ∧ illegal.prog = (illegal.writeReg 2 7).prog ∧
    (after illegal).run = .faulted ∧ (after illegal).cause = .illegalInstruction ∧
    (after (illegal.writeReg 2 7)).run = .faulted :=
  ⟨rfl, rfl, rfl, by decide, by decide, by decide⟩
theorem witness_FetchDoesNotDependOnData_halt : step State.reset = .next (after State.reset) ∧
    step (State.reset.writeReg 2 7) = .next (after (State.reset.writeReg 2 7)) ∧ (after State.reset).run = .halted :=
  ⟨rfl, rfl, by decide⟩

/-- The rows of the exception table, in their order, the last being an instruction that raises nothing. -/
theorem witness_ExceptionsAreRaisedAsTabled_decode :
    decode (machine [0x01#8]).cfg.rsvPolicy ((machine [0x01#8]).prog.drop 0) = .error .unknownOpcode ∧
    decode (machine [0x43#8]).cfg.rsvPolicy ((machine [0x43#8]).prog.drop 0) = .error .truncated ∧
    decode (machine [0x50#8, 0#8, 1#8]).cfg.rsvPolicy ((machine [0x50#8, 0#8, 1#8]).prog.drop 0) = .error .reservedBits := by
  decide
theorem witness_ExceptionsAreRaisedAsTabled_enabled : (machine [0x43#8]).Enabled ∧ (machine [0x50#8, 0#8, 1#8]).Enabled :=
  ⟨⟨by decide, by decide, rfl⟩, by decide, by decide, rfl⟩
theorem witness_ExceptionsAreRaisedAsTabled_memory :
    (decode .trap (readingPast.prog.drop readingPast.pc) = .ok (.read 1 127 2) ∧ 1024 ≤ readingPast.readReg 1 + 127) ∧
    (decode .trap (writing.prog.drop writing.pc) = .ok (.write 1 2) ∧ 1024 ≤ (writing.writeReg 2 1024).readReg 2) ∧
    (decode .trap (adding.prog.drop adding.pc) = .ok (.add 1 4 2) ∧ 1024 ≤ (adding.writeReg 2 1024).readReg 2) ∧
    (decode .trap [0xB2#8, 0x1A#8, 0x00#8, 0x10#8] = .ok (.add 3 1024 4) ∧
      (machine [0xB2#8, 0x1A#8, 0x00#8, 0x10#8]).readReg 4 < 1024) := by decide

theorem witness_FaultsArePrecise : (step readingPast = .next (after readingPast) ∧ (after readingPast).run = .faulted) ∧
    (exec (.read 1 127 2) readingPast = .next (afterExec (.read 1 127 2) readingPast) ∧
      addressRefused readingPast (.read 1 127 2)) ∧
    exec (.read 1 127 2) reading = .next (afterExec (.read 1 127 2) reading) ∧ ¬ addressRefused reading (.read 1 127 2) :=
  ⟨⟨rfl, by decide⟩, ⟨rfl, by unfold addressRefused; decide⟩, rfl, by unfold addressRefused; decide⟩

/-- After one WRITE of a run, the memory holds what its trace says, and the next step answers. -/
theorem witness_MemoryHoldsTheLatestWrite :
    let s := after (machine [0x50#8, 0#8, 0#8])
    s.ram.wf ∧ (∀ a, s.readMem a = lastWritten s.cfg.W s.trace a) ∧ step s = .next (after s) := by
  refine ⟨by decide, fun a => ?_, rfl⟩
  show 0 = if 0 = a then 0 else 0
  simp

theorem witness_PcFitsItsWidth : midRun.Inv := midRun_inv

/-- A program as long as the buffer, and one a byte longer. -/
theorem witness_ExecuteAnswersAnEndedRun : 25 ≤ (⟨25, 3, .trap⟩ : Config).W ∧
    [0x50#8, 0#8, 0#8].length ≤ (⟨25, 3, .trap⟩ : Config).progMax ∧
    (⟨25, 3, .trap⟩ : Config).progMax < [0x50#8, 0#8, 0#8, 0#8].length := by decide

/-- The end of the run of a program, or its reset state where there is none. -/
def ended (prog : List Byte) : State :=
  match execute Config.reference prog with
  | .next t => t
  | .fault _ => machine prog
  | .refused _ => machine prog

theorem witness_HaltedRunExecutedTheWholeProgram :
    execute Config.reference [0x50#8, 0#8, 0#8] = .next (ended [0x50#8, 0#8, 0#8]) ∧
    (ended [0x50#8, 0#8, 0#8]).successful := ⟨rfl, rfl⟩
/-- A run that ends in IllegalInstruction after one instruction, and one that ends in MemoryFault (`ADD R3,1024,R4`). -/
theorem witness_FaultedRunExecutedTheProgramUpToTheFault :
    (execute Config.reference [0x50#8, 0#8, 0#8, 0x01#8] = .next (ended [0x50#8, 0#8, 0#8, 0x01#8]) ∧
      (ended [0x50#8, 0#8, 0#8, 0x01#8]).run = .faulted ∧
      (ended [0x50#8, 0#8, 0#8, 0x01#8]).cause = .illegalInstruction) ∧
    execute Config.reference [0xB2#8, 0x1A#8, 0#8, 0x10#8] = .next (ended [0xB2#8, 0x1A#8, 0#8, 0x10#8]) ∧
      (ended [0xB2#8, 0x1A#8, 0#8, 0x10#8]).run = .faulted ∧ (ended [0xB2#8, 0x1A#8, 0#8, 0x10#8]).cause = .memoryFault :=
  ⟨⟨rfl, rfl, rfl⟩, rfl, rfl, rfl⟩

theorem witness_AssembledTextDecodesToItsInstructions : assembleBytes ['L', 'O', 'A', 'D', ' ', '-', '1', ',', 'R', '1'] =
    .ok [0x43#8, 0xFF#8, 0xFF#8, 0xFF#8, 0x03#8] := by decide
theorem witness_AssemblyStopsAtTheFirstBadLine : assembleProgram ['F', 'O', 'O'] = .error ⟨1, .unknownMnemonic⟩ := by
  decide
/-- Each clause: an unknown mnemonic; a mnemonic with its count; operands that are and are not of their kind. -/
theorem witness_AssemblerChecksInOrder : ['F', 'O', 'O'] ∉ [mnemonicLoad, mnemonicRead, mnemonicWrite, mnemonicAdd] ∧
    (mnemonicRead, 3) ∈ [(mnemonicLoad, 2), (mnemonicRead, 3), (mnemonicWrite, 2), (mnemonicAdd, 3)] ∧
    integerOperand ['x'] = .error (.invalidOperand ['x']) ∧ integerOperand ['-', '1'] = .ok (-1) ∧
    registerOperand ['R', '3', '2'] = .error (.invalidOperand ['R', '3', '2']) ∧ registerOperand ['r', '0'] = .ok 0 ∧
    registerOperand ['R', '3', '1'] = .ok 31 ∧ mnemonicAdd ∈ [mnemonicRead, mnemonicAdd] := by decide

/-- A spaced operand list, as in `WRITE R1 , R2` (95_test_vectors.md section 2.9). -/
def spacedOperands : List (List Char × List Char × List Char) := [([], ['R', '1'], [' ']), ([' '], ['R', '2'], [])]

theorem witness_SourceLinesFollowTheGrammar_operands : ∀ o ∈ spacedOperands, (∀ c ∈ o.1, c.isWhitespace = true) ∧
    (∀ c ∈ o.2.2, c.isWhitespace = true) ∧ o.2.1 ≠ [] ∧ (∀ c ∈ o.2.1, c ≠ ',' ∧ c ≠ ';') ∧
    (∀ c ∈ o.2.1.head?, c.isWhitespace = false) ∧ ∀ c ∈ o.2.1.getLast?, c.isWhitespace = false := by
  simp [spacedOperands, Char.isWhitespace]
/-- The other clauses: a mnemonic and the gap after it; a line without a comment; a blank line; two lines of a text. -/
theorem witness_SourceLinesFollowTheGrammar : (∀ c ∈ mnemonicWrite, c.isWhitespace = false ∧ c ≠ ';') ∧
    (∀ c ∈ ['\t'], c.isWhitespace = true) ∧ ';' ∉ ['A', 'D', 'D'] ∧ (∀ c ∈ [' ', '\t'], c.isWhitespace = true) ∧
    ∀ line ∈ [mnemonicAdd, []], '\n' ∉ line := by
  simp [mnemonicWrite, mnemonicAdd, Char.isWhitespace]

/-- A run after one WRITE, whose next step answers. -/
theorem witness_StepKeepsExecutedProgram :
    let s := after (machine [0x50#8, 0#8, 0#8])
    decodeProgram s.cfg.rsvPolicy (s.prog.take s.pc) = .ok s.executed ∧ s.executed = [.write 0 0] ∧
      step s = .next (after s) :=
  ⟨by decide, by decide, rfl⟩

end Sys2Proof.Tests
end

/-! PROOFS. The statements about the state: what `exec` and `step` can do to it, the invariant, `pc` and the registers. -/

namespace Sys2Proof.Machine

/-! ### What an instruction and a step leave alone -/

theorem State.sameControl_writeReg (s : State) (i : Fin 32) (v : Nat) : s.SameControl (s.writeReg i v) :=
  ⟨rfl, rfl, rfl, rfl, rfl, rfl, rfl, rfl, rfl⟩

theorem State.sameControl_writeMem (s : State) (a v : Nat) : s.SameControl (s.writeMem a v) :=
  ⟨rfl, rfl, rfl, rfl, rfl, rfl, rfl, rfl, rfl⟩

theorem State.sameMachine_raise (s : State) (e : Exception) : s.SameMachine (s.raise e) :=
  ⟨rfl, rfl, rfl, rfl, rfl, rfl⟩

theorem State.sameMachine_halt (s : State) : s.SameMachine s.halt := ⟨rfl, rfl, rfl, rfl, rfl, rfl⟩

/-- The two outcomes of `Execute` (R101): it completes with everything but registers and memory kept, or it raises
MemoryFault with an address outside the memory. -/
theorem exec_outcomes {i : Instr} {s t : State} (h : exec i s = .next t) :
    (¬ addressRefused s i ∧ s.SameControl t) ∨
    (addressRefused s i ∧ ∃ sub a, 1024 ≤ a ∧ t = s.raise (.memoryFault sub a)) := by
  cases i with
  | load const reg =>
    rw [execLoad_cases h]
    exact .inl ⟨id, s.sameControl_writeReg ..⟩
  | read srcReg offset dstReg =>
    rcases execRead_cases h with ⟨ha, rfl⟩ | ⟨ha, rfl⟩
    · exact .inl ⟨not_le.2 ha, s.sameControl_writeReg ..⟩
    · exact .inr ⟨ha, _, _, ha, rfl⟩
  | write srcReg dstReg =>
    rcases execWrite_cases h with ⟨ha, rfl⟩ | ⟨ha, rfl⟩
    · exact .inl ⟨not_le.2 ha, s.sameControl_writeMem ..⟩
    · exact .inr ⟨ha, _, _, ha, rfl⟩
  | add srcReg addr addrReg =>
    rcases execAdd_cases h with ⟨hr, hw, rfl⟩ | ⟨hr, rfl⟩ | ⟨_, hw, rfl⟩
    · exact .inl ⟨not_or.2 ⟨not_le.2 hr, not_le.2 hw⟩, s.sameControl_writeMem ..⟩
    · exact .inr ⟨.inl hr, _, _, hr, rfl⟩
    · exact .inr ⟨.inr hw, _, _, hw, rfl⟩

theorem exec_pc {i : Instr} {s t : State} (h : exec i s = .next t) : t.pc = s.pc := by
  rcases exec_outcomes h with ⟨_, hc⟩ | ⟨_, _, _, _, rfl⟩
  · exact hc.pc
  · rfl

theorem exec_prog {i : Instr} {s t : State} (h : exec i s = .next t) : t.prog = s.prog := by
  rcases exec_outcomes h with ⟨_, hc⟩ | ⟨_, _, _, _, rfl⟩
  · exact hc.prog
  · rfl

/-- A step goes on exactly by completing an instruction (R101); one that halts or faults leaves the machine alone. -/
theorem step_outcomes {s t : State} (h : step s = .next t) :
    (t.run ≠ .running ∧ s.SameMachine t) ∨
    (t.run = .running ∧ ∃ i u, decode s.cfg.rsvPolicy (s.prog.drop s.pc) = .ok i ∧ exec i s = .next u ∧
      s.SameControl u ∧ t = (u.advance i.length).emit
        { instr := i, pre := s.snapshot, post := (u.advance i.length).snapshot }) := by
  obtain ⟨hen, ⟨_, rfl⟩ | ⟨_, e, _, rfl⟩ | ⟨_, i, u, hdec, hex, rfl⟩⟩ := step_cases h
  · exact .inl ⟨nofun, s.sameMachine_halt⟩
  · exact .inl ⟨nofun, s.sameMachine_raise _⟩
  · rcases exec_outcomes hex with ⟨_, hc⟩ | ⟨_, _, _, _, rfl⟩
    · have hrun : u.run = .running := hc.run.trans hen.running
      rw [State.retire_of_running i hrun]
      exact .inr ⟨hrun, i, u, hdec, hex, hc, rfl⟩
    · rw [State.retire_of_faulted i rfl]
      exact .inl ⟨nofun, s.sameMachine_raise _⟩

/-! ### The invariant: the values a state of the invariant holds -/

theorem State.Inv.readMem_lt {s : State} (hs : s.Inv) (a : Nat) : s.readMem a < 2 ^ s.cfg.W :=
  Memory.read_induction (p := (· < 2 ^ s.cfg.W)) (Nat.two_pow_pos _) hs.ramBound a

/-- Every numeric field of an instruction is narrower than a register (R8, R66). -/
theorem State.Inv.lt_of_narrow {s : State} (hs : s.Inv) {n v : Nat} (hn : n ≤ 25) (hv : v < 2 ^ n) :
    v < 2 ^ s.cfg.W :=
  hv.trans_le (Nat.pow_le_pow_right (by decide) (hn.trans hs.minW))

theorem State.Inv.faultPc_le_pc {s : State} (hs : s.Inv) : s.faultPc ≤ s.pc := by
  by_cases hrun : s.run = .faulted
  · obtain ⟨_, hpc, _⟩ := hs.recordSet hrun
    exact hpc.le
  · obtain ⟨_, _, hpc, _⟩ := hs.recordClear hrun
    exact hpc ▸ Nat.zero_le _

/-- R25: the buffer's length fits `PC_BITS` bits. -/
theorem State.Inv.length_lt_two_pow_pcBits {s : State} (hs : s.Inv) : s.prog.length < 2 ^ s.cfg.pcBits :=
  calc s.prog.length < s.cfg.progMax + 1 := Nat.lt_succ_of_le hs.progFits
    _ ≤ 2 ^ s.cfg.pcBits := Nat.le_pow_clog (by decide) _

/-! ### The invariant: reset meets it, and each operation of a step keeps it -/

theorem State.Inv.resetWith {cfg : Config} {prog : List Byte} (hW : 25 ≤ cfg.W) (hL : prog.length ≤ cfg.progMax) :
    (State.resetWith cfg prog).Inv where
  minW := hW
  progFits := hL
  regBound i := by simp
  ramWf := Memory.wf_nil
  ramIndex := by simp
  ramBound := by simp
  pcBound := Nat.zero_le _
  haltedAtEnd := nofun
  recordClear _ := ⟨rfl, rfl, rfl, rfl⟩
  recordSet := nofun
  recordIllegal := nofun
  recordMemory := nofun
  traceBound := le_rfl

theorem State.Inv.writeReg {s : State} (hs : s.Inv) (r : Fin 32) {v : Nat} (hv : v < 2 ^ s.cfg.W) :
    (s.writeReg r v).Inv where
  __ := hs
  regBound i := by
    by_cases hi : i = r
    · simpa [hi] using hv
    · simpa [State.readReg_writeReg_of_ne s hi] using hs.regBound i

theorem State.Inv.writeMem {s : State} (hs : s.Inv) {a v : Nat} (ha : a < 1024) (hv : v < 2 ^ s.cfg.W) :
    (s.writeMem a v).Inv where
  __ := hs
  ramWf := Memory.wf_write hs.ramWf a v
  ramIndex c hc := by
    rcases Memory.mem_write hc with hc | ⟨rfl, _⟩
    · exact hs.ramIndex c hc
    · exact ha
  ramBound c hc := by
    rcases Memory.mem_write hc with hc | ⟨rfl, _⟩
    · exact hs.ramBound c hc
    · exact hv

theorem State.Inv.halt {s : State} (hs : s.Inv) (hrun : s.run = .running) (hpc : s.pc = s.prog.length) :
    s.halt.Inv where
  __ := hs
  haltedAtEnd _ := hpc
  recordClear _ := hs.recordClear (by simp [hrun])
  recordSet := nofun

/-- IllegalInstruction has three sub-causes (R150). -/
theorem illegalSubCode_ne_three (sub : IllegalSub) : illegalSubCode sub ≠ 3#2 := by
  cases sub <;> decide

/-- Fault entry at an opcode byte keeps the invariant, when a refused address is recorded as R152 says. -/
theorem State.Inv.raise {s : State} (hs : s.Inv) (hpc : s.pc < s.prog.length) {e : Exception}
    (he : exceptionCause e = .memoryFault → 1024 ≤ exceptionAddr e ∧ exceptionAddr e < 2 ^ (s.cfg.W + 1)) :
    (s.raise e).Inv where
  __ := hs
  haltedAtEnd := nofun
  recordClear hrun := absurd rfl hrun
  recordSet _ := ⟨by cases e <;> nofun, rfl, hpc⟩
  recordIllegal hc := by
    cases e with
    | illegalInstruction sub => exact ⟨illegalSubCode_ne_three sub, rfl⟩
    | memoryFault sub a => exact nomatch hc
  recordMemory := he

theorem State.Inv.advance_emit {s : State} (hs : s.Inv) (hrun : s.run = .running) {len : Nat} (hlen : 3 ≤ len)
    (hfit : s.pc + len ≤ s.prog.length) (ev : TraceEvent) : ((s.advance len).emit ev).Inv where
  __ := hs
  pcBound := hfit
  haltedAtEnd hh := by simp [hrun] at hh
  recordSet hf := by simp [hrun] at hf
  traceBound := by
    have := hs.traceBound
    show 3 * (s.trace.length + 1) ≤ s.pc + len
    omega

/-- Every instruction the decoder gives keeps the invariant: what it stores is below `2^W`, and an address it records
is a register value or a field, or READ's sum of the two, which one more bit holds (R28). -/
theorem State.Inv.of_exec {i : Instr} {s t : State} (hs : s.Inv) (hpc : s.pc < s.prog.length)
    (hi : i.wellFormed = true) (h : exec i s = .next t) : t.Inv := by
  have hpow : 2 ^ (s.cfg.W + 1) = 2 ^ s.cfg.W * 2 := Nat.pow_succ ..
  have fault {sub a} (hlo : 1024 ≤ a) (hhi : a < 2 ^ s.cfg.W * 2) : (s.raise (.memoryFault sub a)).Inv :=
    hs.raise hpc fun _ => ⟨hlo, hpow ▸ hhi⟩
  cases i with
  | load const reg =>
    rw [execLoad_cases h]
    exact hs.writeReg reg (zext_lt _ _)
  | read srcReg offset dstReg =>
    have hoff : offset < 2 ^ s.cfg.W := hs.lt_of_narrow (n := 7) (by decide) (of_decide_eq_true hi)
    have hsrc := hs.regBound srcReg
    rcases execRead_cases h with ⟨_, rfl⟩ | ⟨ha, rfl⟩
    · exact hs.writeReg dstReg (hs.readMem_lt _)
    · exact fault ha (by omega)
  | write srcReg dstReg =>
    have hdst := hs.regBound dstReg
    rcases execWrite_cases h with ⟨ha, rfl⟩ | ⟨ha, rfl⟩
    · exact hs.writeMem ha (hs.regBound srcReg)
    · exact fault ha (by omega)
  | add srcReg addr addrReg =>
    have haddr : addr < 2 ^ s.cfg.W := hs.lt_of_narrow (n := 12) (by decide) (of_decide_eq_true hi)
    have hreg := hs.regBound addrReg
    rcases execAdd_cases h with ⟨_, hw, rfl⟩ | ⟨hr, rfl⟩ | ⟨_, hw, rfl⟩
    · exact hs.writeMem hw (aluAdd_lt ..)
    · exact fault hr (by omega)
    · exact fault hw (by omega)

/-- Retiring a decoded instruction keeps the invariant: its bytes lie inside the buffer (R102). -/
theorem State.Inv.of_retire {i : Instr} {s u : State} (hs : s.Inv) (hen : s.Enabled) (hpc : s.pc < s.prog.length)
    (hdec : decode s.cfg.rsvPolicy (s.prog.drop s.pc) = .ok i) (h : exec i s = .next u) : (s.retire i u).Inv := by
  have hu : u.Inv := hs.of_exec hpc (wellFormed_of_decode hdec) h
  rcases exec_run h with ⟨_, hrun⟩ | ⟨_, hrun⟩
  · have hfit : u.pc + i.length ≤ u.prog.length := by
      have := length_le_of_decode hdec
      rw [List.length_drop] at this
      rw [exec_pc h, exec_prog h]
      omega
    have hrunning : u.run = .running := hrun.trans hen.running
    rw [State.retire_of_running i hrunning]
    exact hu.advance_emit hrunning (length_bounds i).1 hfit _
  · rwa [State.retire_of_faulted i hrun]

/-- Settles O9, operation by operation: a step halts, enters the Faulted state, or retires a decoded instruction. -/
theorem stepKeepsInvariant : Obligations.StepKeepsInvariant := by
  intro s t hs h
  obtain ⟨hen, ⟨hpc, rfl⟩ | ⟨hpc, e, _, rfl⟩ | ⟨hpc, i, u, hdec, hex, rfl⟩⟩ := step_cases h
  · exact hs.halt hen.running hpc
  · exact hs.raise hpc nofun
  · exact hs.of_retire hen hpc hdec hex

/-- Settles O2: the reset state's registers, cells, `pc`, record and trace are all 0 or empty. -/
theorem resetSatisfiesInvariant : Obligations.ResetSatisfiesInvariant :=
  ⟨fun _ _ hW hL => ⟨.resetWith hW hL, rfl⟩, .resetWith (by decide) (by decide)⟩

/-- Settles O39: both are at most the buffer's length, which fits. -/
theorem pcFitsItsWidth : Obligations.PcFitsItsWidth := fun _ hs =>
  have hpc := hs.pcBound.trans_lt hs.length_lt_two_pow_pcBits
  ⟨hpc, hs.faultPc_le_pc.trans_lt hpc⟩

/-! ### The program counter (R26, R104) -/

/-- Settles O7: a step that goes on has completed a decoded instruction, which itself keeps `pc`. -/
theorem pcMovesOnlyByInstructionLength : Obligations.PcMovesOnlyByInstructionLength := by
  refine ⟨fun _ _ _ h => exec_pc h, fun s t h => ?_⟩
  rcases step_outcomes h with ⟨hrun, hsame⟩ | ⟨hrun, i, u, hdec, _, hc, rfl⟩
  · exact ⟨fun _ => hsame.pc, fun hr => absurd hr hrun⟩
  · refine ⟨fun hr => absurd hrun hr, fun _ => ⟨i, hdec, ?_⟩⟩
    have hpc : u.pc + i.length = s.pc + i.length := by rw [hc.pc]
    cases i <;> exact hpc

/-! ### The registers an instruction uses (R22) -/

theorem exec_readReg_of_not_written {i : Instr} {s t : State} (h : exec i s = .next t) {r : Fin 32}
    (hr : r ∉ registersWritten i) : t.readReg r = s.readReg r := by
  cases i with
  | load const reg =>
    rw [execLoad_cases h]
    exact s.readReg_writeReg_of_ne (List.ne_of_not_mem_cons hr) _
  | read srcReg offset dstReg =>
    rcases execRead_cases h with ⟨_, rfl⟩ | ⟨_, rfl⟩
    · exact s.readReg_writeReg_of_ne (List.ne_of_not_mem_cons hr) _
    · rfl
  | write srcReg dstReg =>
    rcases execWrite_cases h with ⟨_, rfl⟩ | ⟨_, rfl⟩ <;> rfl
  | add srcReg addr addrReg =>
    rcases execAdd_cases h with ⟨_, _, rfl⟩ | ⟨_, rfl⟩ | ⟨_, _, rfl⟩ <;> rfl

/-- Whether the bounds checker refuses an address depends on the registers the instruction reads alone. -/
theorem addressRefused_congr {i : Instr} {s s' : State} (hreg : ∀ r ∈ registersRead i, s.readReg r = s'.readReg r) :
    addressRefused s i ↔ addressRefused s' i := by
  cases i with
  | load const reg => exact Iff.rfl
  | read srcReg offset dstReg => simp [addressRefused, hreg srcReg (by simp [registersRead])]
  | write srcReg dstReg => simp [addressRefused, hreg dstReg (by simp [registersRead])]
  | add srcReg addr addrReg => simp [addressRefused, hreg addrReg (by simp [registersRead])]

/-- Two machines that check the same address both go on, or both raise the same fault. -/
theorem boundsChecked_pair {sub : MemSub} {a : Nat} {s s' t t' : State} {k k' : Result}
    (h : boundsChecked sub a s k = .next t) (h' : boundsChecked sub a s' k' = .next t') :
    (a < 1024 ∧ k = .next t ∧ k' = .next t') ∨ (1024 ≤ a ∧ ∃ e, t = s.raise e ∧ t' = s'.raise e) := by
  rcases boundsChecked_cases h with ⟨ha, hk⟩ | ⟨ha, rfl⟩
  · rw [boundsChecked_of_lt ha] at h'
    exact .inl ⟨ha, hk, h'⟩
  · rw [boundsChecked_of_le ha] at h'
    exact .inr ⟨ha, _, rfl, (Host.Outcome.next.inj h').symm⟩

/-- Two machines with equal parameters and memory that agree on the registers an instruction reads both complete it,
with equal memories and equal values written, or both raise the same fault. -/
theorem exec_pair {i : Instr} {s s' t t' : State} (hcfg : s.cfg = s'.cfg) (hram : s.ram = s'.ram)
    (hreg : ∀ r ∈ registersRead i, s.readReg r = s'.readReg r) (h : exec i s = .next t) (h' : exec i s' = .next t') :
    (¬ addressRefused s i ∧ t.run = s.run ∧ t'.run = s'.run ∧ t.ram = t'.ram ∧
      ∀ r ∈ registersWritten i, t.readReg r = t'.readReg r) ∨
    (addressRefused s i ∧ ∃ e, t = s.raise e ∧ t' = s'.raise e) := by
  have hmem (a : Nat) : s'.readMem a = s.readMem a := State.readMem_congr hram.symm a
  cases i with
  | load const reg =>
    rw [execLoad_cases h, execLoad_cases h']
    exact .inl ⟨id, rfl, rfl, hram, by simp [registersWritten, hcfg]⟩
  | read srcReg offset dstReg =>
    have hsrc : s'.readReg srcReg = s.readReg srcReg := (hreg _ (by simp [registersRead])).symm
    simp only [exec, execRead, readAddress, hsrc, hmem] at h h'
    rcases boundsChecked_pair h h' with ⟨ha, ⟨⟩, ⟨⟩⟩ | he
    · exact .inl ⟨not_le.2 ha, rfl, rfl, hram, by simp [registersWritten]⟩
    · exact .inr he
  | write srcReg dstReg =>
    have hsrc : s'.readReg srcReg = s.readReg srcReg := (hreg _ (by simp [registersRead])).symm
    have hdst : s'.readReg dstReg = s.readReg dstReg := (hreg _ (by simp [registersRead])).symm
    simp only [exec, execWrite, writeAddress, hsrc, hdst] at h h'
    rcases boundsChecked_pair h h' with ⟨ha, ⟨⟩, ⟨⟩⟩ | he
    · exact .inl ⟨not_le.2 ha, rfl, rfl, by simp [hram], by simp [registersWritten]⟩
    · exact .inr he
  | add srcReg addr addrReg =>
    have hsrc : s'.readReg srcReg = s.readReg srcReg := (hreg _ (by simp [registersRead])).symm
    have haddr : s'.readReg addrReg = s.readReg addrReg := (hreg _ (by simp [registersRead])).symm
    simp only [exec, execAdd, addReadAddress, hsrc, haddr, hmem, ← hcfg] at h h'
    rcases boundsChecked_pair h h' with ⟨hr, hk, hk'⟩ | ⟨hr, he⟩
    · rcases boundsChecked_pair hk hk' with ⟨hw, ⟨⟩, ⟨⟩⟩ | ⟨hw, he⟩
      · exact .inl ⟨not_or.2 ⟨not_le.2 hr, not_le.2 hw⟩, rfl, rfl, by simp [hram], by simp [registersWritten]⟩
      · exact .inr ⟨.inr hw, he⟩
    · exact .inr ⟨.inl hr, he⟩

/-- Settles O31: the frame of the register file, and the two runs taken together. -/
theorem instructionsUseOnlyTheirRegisters : Obligations.InstructionsUseOnlyTheirRegisters := by
  refine ⟨fun _ _ _ h _ hr => exec_readReg_of_not_written h hr, fun i s s' t t' hcfg hram hrun hreg h h' => ?_⟩
  have href : addressRefused s i ↔ addressRefused s' i := addressRefused_congr hreg
  rcases exec_pair hcfg hram hreg h h' with ⟨hn, ht, ht', hmem, hw⟩ | ⟨hf, e, rfl, rfl⟩
  · exact ⟨hmem, ht.trans (hrun.trans ht'.symm), href, fun hf => absurd hf hn, fun _ => hw⟩
  · exact ⟨hram, rfl, href, fun _ => ⟨rfl, rfl, rfl⟩, fun hn => absurd hf hn⟩

/-- Settles O32: a step that halts or faults keeps the registers, and LOAD and READ alone write one. -/
theorem onlyLoadAndReadChangeRegisters : Obligations.OnlyLoadAndReadChangeRegisters := by
  intro s t r h hne
  rcases step_outcomes h with ⟨_, hsame⟩ | ⟨_, i, u, hdec, hex, _, rfl⟩
  · exact absurd (State.readReg_congr hsame.x r) hne
  · have hr : r ∈ registersWritten i := by_contra fun hr => hne (exec_readReg_of_not_written hex hr)
    refine ⟨i, hdec, ?_⟩
    cases i with
    | load const reg => exact .inl ⟨const, List.mem_singleton.1 hr ▸ rfl⟩
    | read srcReg offset dstReg => exact .inr ⟨srcReg, offset, List.mem_singleton.1 hr ▸ rfl⟩
    | write srcReg dstReg => exact nomatch hr
    | add srcReg addr addrReg => exact nomatch hr

end Sys2Proof.Machine

/-! PROOFS. The statements about data memory, about what the fetch depends on, and about precise faults. -/

namespace Sys2Proof.Machine

/-! ### The cell an instruction writes (R41, R42, R52) -/

/-- Every cell after a store to a canonical memory. -/
theorem State.readMem_writeMem {s : State} (hwf : s.ram.wf) (a v b : Nat) :
    (s.writeMem a v).readMem b = if a = b then v else s.readMem b := by
  by_cases hab : a = b
  · subst hab
    rw [if_pos rfl]
    exact Memory.read_write_self hwf a v
  · rw [if_neg hab]
    exact Memory.read_write_of_ne s.ram (Ne.symm hab) v

/-- `Execute` leaves the memory alone, or stores one cell inside it: WRITE the cell at `x[dst_reg]`, ADD the one at
`addr`. -/
theorem exec_ram_cases {i : Instr} {s t : State} (h : exec i s = .next t) :
    t.ram = s.ram ∨ ∃ a v, a < 1024 ∧ t.ram = s.ram.write a v ∧
      ((∃ srcReg dstReg, i = .write srcReg dstReg ∧ s.readReg dstReg = a) ∨
        ∃ srcReg addrReg, i = .add srcReg a addrReg) := by
  cases i with
  | load const reg =>
    rw [execLoad_cases h]
    exact .inl rfl
  | read srcReg offset dstReg => rcases execRead_cases h with ⟨_, rfl⟩ | ⟨_, rfl⟩ <;> exact .inl rfl
  | write srcReg dstReg =>
    rcases execWrite_cases h with ⟨ha, rfl⟩ | ⟨_, rfl⟩
    · exact .inr ⟨_, _, ha, rfl, .inl ⟨srcReg, dstReg, rfl, rfl⟩⟩
    · exact .inl rfl
  | add srcReg addr addrReg =>
    rcases execAdd_cases h with ⟨_, hw, rfl⟩ | ⟨_, rfl⟩ | ⟨_, _, rfl⟩
    · exact .inr ⟨_, _, hw, rfl, .inr ⟨srcReg, addrReg, rfl⟩⟩
    · exact .inl rfl
    · exact .inl rfl

theorem exec_ram_wf {i : Instr} {s t : State} (hwf : s.ram.wf) (h : exec i s = .next t) : t.ram.wf := by
  rcases exec_ram_cases h with hsame | ⟨a, v, _, hstore, _⟩
  · exact hsame ▸ hwf
  · exact hstore ▸ Memory.wf_write hwf a v

/-- Settles O33: only a completed instruction changes a cell, and then the one cell it stores to. -/
theorem onlyWriteAndAddChangeCells : Obligations.OnlyWriteAndAddChangeCells := by
  intro s t a h hne
  rcases step_outcomes h with ⟨_, hsame⟩ | ⟨_, i, u, hdec, hex, _, rfl⟩
  · exact absurd (State.readMem_congr hsame.ram a) hne
  · rcases exec_ram_cases hex with hkept | ⟨b, v, hb, hstore, hform⟩
    · exact absurd (State.readMem_congr hkept a) hne
    · have hab : a = b := by_contra fun hab =>
        hne ((congrArg (Memory.read · a) hstore).trans (Memory.read_write_of_ne s.ram hab v))
      subst hab
      exact ⟨hb, i, hdec, hform⟩

theorem not_addressRefused_of_running {i : Instr} {s t : State} (h : exec i s = .next t) (hrun : t.run = .running) :
    ¬ addressRefused s i := by
  rcases exec_run h with ⟨hn, _⟩ | ⟨_, hf⟩
  · exact hn
  · exact nomatch hrun.symm.trans hf

/-- Executing an instruction keeps every cell at its latest write, when the events before it and its own event are those
of the run: LOAD and READ write none, WRITE and ADD the value their event tells. -/
theorem exec_readMem_eq_lastWritten {i : Instr} {s t : State} {evs : List TraceEvent} (hwf : s.ram.wf)
    (hmem : ∀ a, s.readMem a = lastWritten s.cfg.W evs a) (h : exec i s = .next t) (hn : ¬ addressRefused s i)
    (post : Snapshot) (a : Nat) :
    t.readMem a = lastWritten s.cfg.W ({ instr := i, pre := s.snapshot, post := post } :: evs) a := by
  cases i with
  | load const reg =>
    rw [execLoad_cases h]
    exact hmem a
  | read srcReg offset dstReg =>
    rcases execRead_cases h with ⟨_, rfl⟩ | ⟨ha, _⟩
    · exact hmem a
    · exact absurd ha hn
  | write srcReg dstReg =>
    rcases execWrite_cases h with ⟨_, rfl⟩ | ⟨ha, _⟩
    · rw [State.readMem_writeMem hwf, hmem]
      rfl
    · exact absurd ha hn
  | add srcReg addr addrReg =>
    rcases execAdd_cases h with ⟨_, _, rfl⟩ | ⟨hr, _⟩ | ⟨_, hw, _⟩
    · rw [State.readMem_writeMem hwf, hmem a]
      rfl
    · exact absurd (.inl hr) hn
    · exact absurd (.inr hw) hn

/-- Settles O38: reset has no event and every cell 0; a step that halts or faults keeps memory and events, and one that
completes an instruction adds its event and does the store that the event tells. -/
theorem memoryHoldsTheLatestWrite : Obligations.MemoryHoldsTheLatestWrite := by
  refine ⟨fun cfg prog a => State.readMem_resetWith cfg prog a, fun s t hwf hmem h => ?_⟩
  rcases step_outcomes h with ⟨_, hsame⟩ | ⟨hrun, i, u, _, hex, hc, rfl⟩
  · refine ⟨hsame.ram ▸ hwf, fun a => ?_⟩
    rw [State.readMem_congr hsame.ram, hsame.cfg, hsame.trace]
    exact hmem a
  · have hn : ¬ addressRefused s i := not_addressRefused_of_running hex hrun
    refine ⟨show u.ram.wf from exec_ram_wf hwf hex, fun a => ?_⟩
    rw [State.emit_cfg, State.emit_trace, State.advance_cfg, State.advance_trace, hc.cfg, hc.trace]
    exact exec_readMem_eq_lastWritten hwf hmem hex hn _ a

/-! ### What a step fetches (R55) -/

/-- Two machines with equal parameters, program and `pc` both halt, both raise the same IllegalInstruction, or both
execute the same instruction. -/
theorem step_pair {s s' t t' : State} (hcfg : s.cfg = s'.cfg) (hprog : s.prog = s'.prog) (hpc : s.pc = s'.pc)
    (h : step s = .next t) (h' : step s' = .next t') :
    (t = s.halt ∧ t' = s'.halt) ∨
    (∃ e, t = s.raise (.illegalInstruction e) ∧ t' = s'.raise (.illegalInstruction e)) ∨
    ∃ i u u', exec i s = .next u ∧ exec i s' = .next u' ∧ s.run = .running ∧ s'.run = .running ∧
      t = s.retire i u ∧ t' = s'.retire i u' := by
  obtain ⟨hen, hcases⟩ := step_cases h
  have hen' : s'.Enabled := (step_cases h').1
  rw [step_of_enabled hen'] at h'
  rw [hcfg, hprog, hpc] at hcases
  rcases hcases with ⟨hend, rfl⟩ | ⟨hlt, e, hdec, rfl⟩ | ⟨hlt, i, u, hdec, hex, rfl⟩
  · rw [stepRunning_of_end hend] at h'
    exact .inl ⟨rfl, (Host.Outcome.next.inj h').symm⟩
  · rw [stepRunning_of_error hlt hdec] at h'
    exact .inr (.inl ⟨e, rfl, (Host.Outcome.next.inj h').symm⟩)
  · obtain ⟨u', hex'⟩ := exec_answers i s'
    rw [stepRunning_of_ok hlt hdec hex'] at h'
    exact .inr (.inr ⟨i, u, u', hex, hex', hen.running, hen'.running, rfl, (Host.Outcome.next.inj h').symm⟩)

/-- Retiring ends in the next Running state, with `pc` behind the instruction and its event the latest, or in a
MemoryFault. -/
theorem retire_outcomes {i : Instr} {s u : State} (hrun : s.run = .running) (h : exec i s = .next u) :
    ((s.retire i u).run = .running ∧ (s.retire i u).pc = s.pc + i.length ∧
      (s.retire i u).trace.head?.map TraceEvent.instr = some i) ∨
    ((s.retire i u).run = .faulted ∧ (s.retire i u).cause = .memoryFault) := by
  rcases exec_outcomes h with ⟨_, hc⟩ | ⟨_, sub, a, _, rfl⟩
  · have hu : u.run = .running := hc.run.trans hrun
    rw [State.retire_of_running i hu]
    exact .inl ⟨hu, congrArg (· + i.length) hc.pc, rfl⟩
  · rw [State.retire_of_faulted i rfl]
    exact .inr ⟨rfl, rfl⟩

/-- Settles O35: two machines that fetch alike step alike but for how the instruction they both execute ends, and that
is never a halt or an IllegalInstruction. -/
theorem fetchDoesNotDependOnData : Obligations.FetchDoesNotDependOnData := by
  intro s s' t t' hcfg hprog hpc h h'
  rcases step_pair hcfg hprog hpc h h' with ⟨rfl, rfl⟩ | ⟨e, rfl, rfl⟩ | ⟨i, u, u', hex, hex', hrun, hrun', rfl, rfl⟩
  · simp
  · simp [hpc]
  · rcases retire_outcomes hrun hex with ⟨hr, hp, ht⟩ | ⟨hr, hc⟩
    · rcases retire_outcomes hrun' hex' with ⟨hr', hp', ht'⟩ | ⟨hr', hc'⟩
      · simp [hr, hr', hp, hp', hpc, ht, ht']
      · simp [hr, hr', hc']
    · rcases retire_outcomes hrun' hex' with ⟨hr', _, _⟩ | ⟨hr', hc'⟩
      · simp [hr, hr', hc]
      · simp [hr, hr', hc, hc']

/-! ### Precise faults (R47, R153) -/

theorem exceptionCause_ne_none (e : Exception) : exceptionCause e ≠ .none := by
  cases e <;> nofun

/-- A step reaches the Faulted state by a fault entry from the state before it, and in no other way. -/
theorem step_faulted {s t : State} (h : step s = .next t) (hf : t.run = .faulted) : ∃ e, t = s.raise e := by
  obtain ⟨hen, ⟨_, rfl⟩ | ⟨_, e, _, rfl⟩ | ⟨_, i, u, _, hex, rfl⟩⟩ := step_cases h
  · exact nomatch hf
  · exact ⟨_, rfl⟩
  · rcases exec_outcomes hex with ⟨_, hc⟩ | ⟨_, sub, a, _, rfl⟩
    · have hu : u.run = .running := hc.run.trans hen.running
      rw [State.retire_of_running i hu] at hf
      exact nomatch hu.symm.trans hf
    · exact ⟨_, State.retire_of_faulted i rfl⟩

/-- Settles O37: the step is a fault entry, and `Execute` either raises or keeps everything but registers and memory. -/
theorem faultsArePrecise : Obligations.FaultsArePrecise := by
  refine ⟨fun s t h hf => ?_, fun i s t h => ?_⟩
  · obtain ⟨e, rfl⟩ := step_faulted h hf
    exact ⟨s.sameMachine_raise e, rfl, exceptionCause_ne_none e⟩
  · rcases exec_outcomes h with ⟨hn, hc⟩ | ⟨hr, sub, a, _, rfl⟩
    · exact ⟨fun hr => absurd hr hn, fun _ => hc⟩
    · exact ⟨fun _ => s.sameMachine_raise _, fun hn => absurd hr hn⟩

end Sys2Proof.Machine

/-! PROOFS. The statements about decoding and encoding: the two round trips of R77, and what each answer of the decoder
rests on. -/

namespace Sys2Proof

open Machine

/-! ### Bit fields as slices of bytes -/

theorem toNat_append_eq_add {m n : Nat} (x : BitVec m) (y : BitVec n) :
    (x ++ y).toNat = x.toNat * 2 ^ n + y.toNat := by
  rw [BitVec.toNat_append, ← Nat.shiftLeft_add_eq_or_of_lt y.isLt, Nat.shiftLeft_eq]

theorem toNat_extractLsb'_eq_mod {n : Nat} (x : BitVec n) (start len : Nat) :
    (x.extractLsb' start len).toNat = x.toNat / 2 ^ start % 2 ^ len := by
  rw [BitVec.extractLsb'_toNat, Nat.shiftRight_eq_div_pow]

/-- LOAD's constant, put together from its four pieces (R61). -/
theorem load_const_of_slices (c : BitVec 25) :
    c.extractLsb' 24 1 ++ c.extractLsb' 16 8 ++ c.extractLsb' 8 8 ++ c.extractLsb' 0 8 = c := by
  rw [BitVec.extractLsb'_append_extractLsb'_eq_extractLsb' (show 24 = 16 + 8 from rfl),
    BitVec.extractLsb'_append_extractLsb'_eq_extractLsb' (show 16 = 8 + 8 from rfl),
    BitVec.extractLsb'_append_extractLsb']

/-- ADD's address, put together from its three pieces (R64). -/
theorem add_addr_of_slices (a : BitVec 12) : a.extractLsb' 9 3 ++ a.extractLsb' 1 8 ++ a.extractLsb' 0 1 = a := by
  rw [BitVec.extractLsb'_append_extractLsb'_eq_extractLsb' (show 9 = 1 + 8 from rfl),
    BitVec.extractLsb'_append_extractLsb']

/-! ### The layout of the encodings, byte by byte -/

/-- READ's bytes (R62). -/
theorem encodeRead_eq (srcReg offset dstReg : Int) :
    encodeRead srcReg offset dstReg =
      [0xC8#8, BitVec.ofInt 5 srcReg ++ (BitVec.ofInt 7 offset).extractLsb' 4 3,
        (BitVec.ofInt 7 offset).extractLsb' 0 4 ++ (BitVec.ofInt 5 dstReg).extractLsb' 1 4,
        (BitVec.ofInt 5 dstReg).extractLsb' 0 1 ++ 0#7] := by
  unfold encodeRead
  generalize BitVec.ofInt 5 srcReg = s, BitVec.ofInt 7 offset = o, BitVec.ofInt 5 dstReg = d
  simp only [bytesOfWord32, List.cons.injEq, and_true, BitVec.toNat_eq, toNat_append_eq_add, toNat_extractLsb'_eq_mod,
    BitVec.toNat_ofNat]
  omega

/-- WRITE's bytes (R63). -/
theorem encodeWrite_eq (srcReg dstReg : Int) :
    encodeWrite srcReg dstReg =
      [0x50#8, BitVec.ofInt 5 srcReg ++ (BitVec.ofInt 5 dstReg).extractLsb' 2 3,
        (BitVec.ofInt 5 dstReg).extractLsb' 0 2 ++ 0#6] := by
  unfold encodeWrite
  generalize BitVec.ofInt 5 srcReg = s, BitVec.ofInt 5 dstReg = d
  simp only [bytesOfWord24, List.cons.injEq, and_true, BitVec.toNat_eq, toNat_append_eq_add, toNat_extractLsb'_eq_mod,
    BitVec.toNat_ofNat]
  omega

/-- ADD's bytes (R64). -/
theorem encodeAdd_eq (srcReg addr addrReg : Int) :
    encodeAdd srcReg addr addrReg =
      [0xB2#8, BitVec.ofInt 5 srcReg ++ (BitVec.ofInt 12 addr).extractLsb' 9 3,
        (BitVec.ofInt 12 addr).extractLsb' 1 8,
        (BitVec.ofInt 12 addr).extractLsb' 0 1 ++ BitVec.ofInt 5 addrReg ++ 0#2] := by
  unfold encodeAdd
  generalize BitVec.ofInt 5 srcReg = s, BitVec.ofInt 12 addr = a, BitVec.ofInt 5 addrReg = r
  simp only [bytesOfWord32, List.cons.injEq, and_true, BitVec.toNat_eq, toNat_append_eq_add, toNat_extractLsb'_eq_mod,
    BitVec.toNat_ofNat]
  omega

/-! ### Decoding an encoding gives its fields back (R76, R77) -/

@[simp] theorem acceptReserved_zero (pol : RsvPolicy) (n : Nat) (i : Instr) : acceptReserved pol 0#n i = .ok i := by
  simp [acceptReserved]

theorem decode_encodeLoad (pol : RsvPolicy) (const reg : Int) (rest : List Byte) :
    decode pol (encodeLoad const reg ++ rest) =
      .ok (.load (BitVec.ofInt 25 const).toNat (regOfField (BitVec.ofInt 5 reg))) := by
  show decodeLoad pol _ _ _ _ = _
  simp only [decodeLoad, BitVec.extractLsb'_append_eq_right, BitVec.extractLsb'_append_eq_of_le, Nat.reduceLeDiff,
    Nat.reduceSub, BitVec.extractLsb'_eq_self, load_const_of_slices, acceptReserved_zero]

theorem decode_encodeRead (pol : RsvPolicy) (srcReg offset dstReg : Int) (rest : List Byte) :
    decode pol (encodeRead srcReg offset dstReg ++ rest) =
      .ok (.read (regOfField (BitVec.ofInt 5 srcReg)) (BitVec.ofInt 7 offset).toNat
        (regOfField (BitVec.ofInt 5 dstReg))) := by
  rw [encodeRead_eq]
  show decodeRead pol _ _ _ = _
  simp only [decodeRead, BitVec.extractLsb'_append_eq_left, BitVec.extractLsb'_append_eq_right,
    BitVec.extractLsb'_append_extractLsb', acceptReserved_zero]

theorem decode_encodeWrite (pol : RsvPolicy) (srcReg dstReg : Int) (rest : List Byte) :
    decode pol (encodeWrite srcReg dstReg ++ rest) =
      .ok (.write (regOfField (BitVec.ofInt 5 srcReg)) (regOfField (BitVec.ofInt 5 dstReg))) := by
  rw [encodeWrite_eq]
  show decodeWrite pol _ _ = _
  simp only [decodeWrite, BitVec.extractLsb'_append_eq_left, BitVec.extractLsb'_append_eq_right,
    BitVec.extractLsb'_append_extractLsb', acceptReserved_zero]

theorem decode_encodeAdd (pol : RsvPolicy) (srcReg addr addrReg : Int) (rest : List Byte) :
    decode pol (encodeAdd srcReg addr addrReg ++ rest) =
      .ok (.add (regOfField (BitVec.ofInt 5 srcReg)) (BitVec.ofInt 12 addr).toNat
        (regOfField (BitVec.ofInt 5 addrReg))) := by
  rw [encodeAdd_eq]
  show decodeAdd pol _ _ _ = _
  simp only [decodeAdd, BitVec.extractLsb'_append_eq_right, BitVec.extractLsb'_append_eq_of_le, Nat.reduceLeDiff,
    Nat.reduceSub, BitVec.extractLsb'_eq_self, add_addr_of_slices, acceptReserved_zero]

theorem regOfField_ofInt (v : Int) : regOfField (BitVec.ofInt 5 v) = Fin.ofNat 32 (v % 2 ^ 5).toNat := by
  have hlt : (v % 2 ^ 5).toNat < 32 := by omega
  ext
  exact (BitVec.toNat_ofInt v).trans (Nat.mod_eq_of_lt hlt).symm

@[simp] theorem regOfField_ofInt_val (r : Fin 32) : regOfField (BitVec.ofInt 5 r.val) = r := by
  ext
  rw [BitVec.ofInt_natCast]
  exact Nat.mod_eq_of_lt r.isLt

theorem toNat_ofInt_of_lt {n v : Nat} (h : v < 2 ^ n) : (BitVec.ofInt n (v : Int)).toNat = v := by
  rw [BitVec.ofInt_natCast, BitVec.toNat_ofNat, Nat.mod_eq_of_lt h]

/-- Settles O16: a field that fits in its width is its own low bits. -/
theorem decodeOfEncodeIsIdentity : Obligations.DecodeOfEncodeIsIdentity := by
  intro pol i rest hi
  cases i with
  | load const reg =>
    have hconst : const < 2 ^ 25 := of_decide_eq_true hi
    rw [encode, decode_encodeLoad, toNat_ofInt_of_lt hconst, regOfField_ofInt_val]
  | read srcReg offset dstReg =>
    have hoffset : offset < 2 ^ 7 := of_decide_eq_true hi
    rw [encode, decode_encodeRead, toNat_ofInt_of_lt hoffset, regOfField_ofInt_val, regOfField_ofInt_val]
  | write srcReg dstReg => rw [encode, decode_encodeWrite, regOfField_ofInt_val, regOfField_ofInt_val]
  | add srcReg addr addrReg =>
    have haddr : addr < 2 ^ 12 := of_decide_eq_true hi
    rw [encode, decode_encodeAdd, toNat_ofInt_of_lt haddr, regOfField_ofInt_val, regOfField_ofInt_val]

/-- Settles O18: what the encoding of a field value decodes to, its low bits, is `v mod 2^n`. -/
theorem outOfWidthFieldsKeepLowBits : Obligations.OutOfWidthFieldsKeepLowBits := by
  intro pol rest a b c
  rw [decode_encodeLoad, decode_encodeRead, decode_encodeWrite, decode_encodeAdd]
  simp only [regOfField_ofInt, BitVec.toNat_ofInt, Nat.cast_pow, Nat.cast_ofNat, and_self]

/-! ### A whole instruction at the head of the bytes, and its reserved bits (R71, R72) -/

/-- The four formats: opcode and length in bytes (R60). -/
abbrev formats : List (Byte × Nat) := [(0x43#8, 5), (0xC8#8, 4), (0x50#8, 3), (0xB2#8, 4)]

/-- All the bytes of `i` stand at the head of `bytes`, perhaps with reserved bits set. Whatever follows them, the
decoder accepts `i` from them, or refuses the reserved bits under `trap` (R72); with the reserved bits cleared they are
the encoding of `i`. -/
structure BeginsWith (bytes : List Byte) (i : Instr) : Prop where
  decode_take : ∀ (pol : RsvPolicy) (rest : List Byte), decode pol (bytes.take i.length ++ rest) =
    if pol = .trap ∧ clearReserved bytes ≠ bytes then .error .reservedBits else .ok i
  encode_eq : encode i = (clearReserved bytes).take i.length

theorem acceptReserved_eq_ite {n : Nat} {rsv : BitVec n} {p : Prop} [Decidable p] (h : rsv = 0 ↔ p) (pol : RsvPolicy)
    (i : Instr) : acceptReserved pol rsv i = if pol = .trap ∧ ¬ p then .error .reservedBits else .ok i := by
  simp only [acceptReserved, ne_eq, h]

theorem ofInt_toNat {n : Nat} (x : BitVec n) : BitVec.ofInt n (x.toNat : Int) = x := by
  rw [BitVec.ofInt_natCast, BitVec.ofNat_toNat, BitVec.setWidth_eq]

theorem ofInt_regOfField (f : BitVec 5) : BitVec.ofInt 5 ((regOfField f).val : Int) = f := ofInt_toNat f

/-! The masks of the reserved bits (R61 to R64): what each keeps of the format's last byte, and that it changes nothing
exactly when the reserved bits are 0. -/

theorem and_loadMask (b : Byte) :
    b &&& 0x3F#8 = 0#2 ++ b.extractLsb' 1 5 ++ b.extractLsb' 0 1 ∧ (b.extractLsb' 6 2 = 0 ↔ b &&& 0x3F#8 = b) := by
  revert b
  decide

theorem and_readMask (b : Byte) :
    b &&& 0x80#8 = b.extractLsb' 7 1 ++ 0#7 ∧ (b.extractLsb' 0 7 = 0 ↔ b &&& 0x80#8 = b) := by
  revert b
  decide

theorem and_writeMask (b : Byte) :
    b &&& 0xC0#8 = b.extractLsb' 6 2 ++ 0#6 ∧ (b.extractLsb' 0 6 = 0 ↔ b &&& 0xC0#8 = b) := by
  revert b
  decide

theorem and_addMask (b : Byte) :
    b &&& 0xFC#8 = b.extractLsb' 7 1 ++ b.extractLsb' 2 5 ++ 0#2 ∧ (b.extractLsb' 0 2 = 0 ↔ b &&& 0xFC#8 = b) := by
  revert b
  decide

theorem beginsWith_load (b1 b2 b3 b4 : Byte) (rest : List Byte) :
    BeginsWith (0x43#8 :: b1 :: b2 :: b3 :: b4 :: rest)
      (.load (b4.extractLsb' 0 1 ++ b3 ++ b2 ++ b1).toNat (regOfField (b4.extractLsb' 1 5))) := by
  obtain ⟨hkept, hclear⟩ := and_loadMask b4
  refine ⟨fun pol tail => acceptReserved_eq_ite ?_ pol _, ?_⟩
  · simpa [clearReserved] using hclear
  · show encodeLoad _ _ = [0x43#8, b1, b2, b3, b4 &&& 0x3F#8]
    rw [hkept, encodeLoad]
    simp only [ofInt_toNat, ofInt_regOfField, BitVec.extractLsb'_append_eq_right, BitVec.extractLsb'_append_eq_of_le,
      Nat.reduceLeDiff, Nat.reduceSub, BitVec.extractLsb'_eq_self]

theorem beginsWith_read (b1 b2 b3 : Byte) (rest : List Byte) :
    BeginsWith (0xC8#8 :: b1 :: b2 :: b3 :: rest)
      (.read (regOfField (b1.extractLsb' 3 5)) (b1.extractLsb' 0 3 ++ b2.extractLsb' 4 4).toNat
        (regOfField (b2.extractLsb' 0 4 ++ b3.extractLsb' 7 1))) := by
  obtain ⟨hkept, hclear⟩ := and_readMask b3
  refine ⟨fun pol tail => acceptReserved_eq_ite ?_ pol _, ?_⟩
  · simpa [clearReserved] using hclear
  · show encodeRead _ _ _ = [0xC8#8, b1, b2, b3 &&& 0x80#8]
    rw [hkept, encodeRead_eq]
    simp only [ofInt_toNat, ofInt_regOfField, BitVec.extractLsb'_append_eq_left, BitVec.extractLsb'_append_eq_right,
      BitVec.extractLsb'_append_extractLsb']

theorem beginsWith_write (b1 b2 : Byte) (rest : List Byte) :
    BeginsWith (0x50#8 :: b1 :: b2 :: rest)
      (.write (regOfField (b1.extractLsb' 3 5)) (regOfField (b1.extractLsb' 0 3 ++ b2.extractLsb' 6 2))) := by
  obtain ⟨hkept, hclear⟩ := and_writeMask b2
  refine ⟨fun pol tail => acceptReserved_eq_ite ?_ pol _, ?_⟩
  · simpa [clearReserved] using hclear
  · show encodeWrite _ _ = [0x50#8, b1, b2 &&& 0xC0#8]
    rw [hkept, encodeWrite_eq]
    simp only [ofInt_regOfField, BitVec.extractLsb'_append_eq_left, BitVec.extractLsb'_append_eq_right,
      BitVec.extractLsb'_append_extractLsb']

theorem beginsWith_add (b1 b2 b3 : Byte) (rest : List Byte) :
    BeginsWith (0xB2#8 :: b1 :: b2 :: b3 :: rest)
      (.add (regOfField (b1.extractLsb' 3 5)) (b1.extractLsb' 0 3 ++ b2 ++ b3.extractLsb' 7 1).toNat
        (regOfField (b3.extractLsb' 2 5))) := by
  obtain ⟨hkept, hclear⟩ := and_addMask b3
  refine ⟨fun pol tail => acceptReserved_eq_ite ?_ pol _, ?_⟩
  · simpa [clearReserved] using hclear
  · show encodeAdd _ _ _ = [0xB2#8, b1, b2, b3 &&& 0xFC#8]
    rw [hkept, encodeAdd_eq]
    simp only [ofInt_toNat, ofInt_regOfField, BitVec.extractLsb'_append_eq_right, BitVec.extractLsb'_append_eq_of_le,
      Nat.reduceLeDiff, Nat.reduceSub, BitVec.extractLsb'_eq_self, BitVec.extractLsb'_append_extractLsb']

/-! ### What the decoder answers, by the opcode and the number of bytes (R71, R78) -/

theorem decode_of_unassigned {op : Byte} (hop : op ∉ [0x43#8, 0xB2#8, 0x50#8, 0xC8#8]) (pol : RsvPolicy)
    (rest : List Byte) : decode pol (op :: rest) = .error .unknownOpcode := by
  simp only [List.mem_cons, List.not_mem_nil, or_false, not_or] at hop
  obtain ⟨hload, hadd, hwrite, hread⟩ := hop
  simp only [decode, if_neg hload, if_neg hread, if_neg hwrite, if_neg hadd]

theorem clearReserved_of_unassigned {op : Byte} (hop : op ∉ [0x43#8, 0xB2#8, 0x50#8, 0xC8#8])
    (rest : List Byte) : clearReserved (op :: rest) = op :: rest := by
  simp only [List.mem_cons, List.not_mem_nil, or_false, not_or] at hop
  obtain ⟨hload, hadd, hwrite, hread⟩ := hop
  simp only [clearReserved, if_neg hload, if_neg hread, if_neg hwrite, if_neg hadd]

theorem exists_format {op : Byte} (hop : op ∈ [0x43#8, 0xB2#8, 0x50#8, 0xC8#8]) : ∃ len, (op, len) ∈ formats := by
  simp only [List.mem_cons, List.not_mem_nil, or_false] at hop
  rcases hop with rfl | rfl | rfl | rfl <;> simp

theorem decode_of_short {op : Byte} {len : Nat} {rest : List Byte} (hop : (op, len) ∈ formats)
    (hlen : rest.length + 1 < len) (pol : RsvPolicy) : decode pol (op :: rest) = .error .truncated := by
  simp only [List.mem_cons, List.not_mem_nil, or_false, Prod.mk.injEq] at hop
  rcases hop with ⟨rfl, rfl⟩ | ⟨rfl, rfl⟩ | ⟨rfl, rfl⟩ | ⟨rfl, rfl⟩
  · match rest with
    | [] | [_] | [_, _] | [_, _, _] => rfl
  · match rest with
    | [] | [_] | [_, _] => rfl
  · match rest with
    | [] | [_] => rfl
  · match rest with
    | [] | [_] | [_, _] => rfl

theorem clearReserved_of_short {op : Byte} {len : Nat} {rest : List Byte} (hop : (op, len) ∈ formats)
    (hlen : rest.length + 1 < len) : clearReserved (op :: rest) = op :: rest := by
  simp only [List.mem_cons, List.not_mem_nil, or_false, Prod.mk.injEq] at hop
  rcases hop with ⟨rfl, rfl⟩ | ⟨rfl, rfl⟩ | ⟨rfl, rfl⟩ | ⟨rfl, rfl⟩ <;>
    exact congrArg _ (List.modify_eq_self (by omega))

theorem exists_beginsWith {op : Byte} {len : Nat} {rest : List Byte} (hop : (op, len) ∈ formats)
    (hlen : len ≤ rest.length + 1) : ∃ i, i.length = len ∧ BeginsWith (op :: rest) i := by
  simp only [List.mem_cons, List.not_mem_nil, or_false, Prod.mk.injEq] at hop
  rcases hop with ⟨rfl, rfl⟩ | ⟨rfl, rfl⟩ | ⟨rfl, rfl⟩ | ⟨rfl, rfl⟩
  · match rest with
    | b1 :: b2 :: b3 :: b4 :: tail => exact ⟨_, rfl, beginsWith_load b1 b2 b3 b4 tail⟩
  · match rest with
    | b1 :: b2 :: b3 :: tail => exact ⟨_, rfl, beginsWith_read b1 b2 b3 tail⟩
  · match rest with
    | b1 :: b2 :: tail => exact ⟨_, rfl, beginsWith_write b1 b2 tail⟩
  · match rest with
    | b1 :: b2 :: b3 :: tail => exact ⟨_, rfl, beginsWith_add b1 b2 b3 tail⟩

theorem beginsWith_of_decode {pol : RsvPolicy} {bytes : List Byte} {i : Instr} (h : decode pol bytes = .ok i) :
    BeginsWith bytes i := by
  rcases decode_cases h with ⟨_, _, _, _, _, rfl, h⟩ | ⟨_, _, _, _, rfl, h⟩ | ⟨_, _, _, rfl, h⟩ |
    ⟨_, _, _, _, rfl, h⟩
  · exact (acceptReserved_cases h).1 ▸ beginsWith_load ..
  · exact (acceptReserved_cases h).1 ▸ beginsWith_read ..
  · exact (acceptReserved_cases h).1 ▸ beginsWith_write ..
  · exact (acceptReserved_cases h).1 ▸ beginsWith_add ..

namespace BeginsWith

variable {bytes : List Byte} {i : Instr}

theorem decode_eq (h : BeginsWith bytes i) (pol : RsvPolicy) :
    decode pol bytes = if pol = .trap ∧ clearReserved bytes ≠ bytes then .error .reservedBits else .ok i := by
  rw [← h.decode_take pol (bytes.drop i.length), List.take_append_drop]

/-- The decoder reads no byte behind the instruction. -/
theorem decode_take_append (h : BeginsWith bytes i) (pol : RsvPolicy) (rest : List Byte) :
    decode pol (bytes.take i.length ++ rest) = decode pol bytes :=
  (h.decode_take pol rest).trans (h.decode_eq pol).symm

theorem decode_ignore (h : BeginsWith bytes i) : decode .ignore bytes = .ok i :=
  h.decode_eq .ignore

theorem decode_error (h : BeginsWith bytes i) {pol : RsvPolicy} {e : IllegalSub} (he : decode pol bytes = .error e) :
    e = .reservedBits := by
  rw [h.decode_eq] at he
  split at he
  · exact (Except.error.inj he).symm
  · exact nomatch he

/-- With the reserved bits cleared, the bytes are the encoding of the instruction and whatever follows it. -/
theorem decode_clearReserved (h : BeginsWith bytes i) (pol : RsvPolicy) : decode pol (clearReserved bytes) = .ok i := by
  rw [← List.take_append_drop i.length (clearReserved bytes), ← h.encode_eq]
  exact decodeOfEncodeIsIdentity pol i _ (wellFormed_of_decode h.decode_ignore)

end BeginsWith

/-- Every byte list begins with a whole instruction, or has no reserved bit and is refused alike under both policies. -/
theorem beginsWith_or_refused (bytes : List Byte) :
    (∃ i, BeginsWith bytes i) ∨ clearReserved bytes = bytes ∧ ∃ e, ∀ pol, decode pol bytes = .error e := by
  match bytes with
  | [] => exact .inr ⟨rfl, .truncated, fun _ => rfl⟩
  | op :: rest =>
    by_cases hop : op ∈ [0x43#8, 0xB2#8, 0x50#8, 0xC8#8]
    · obtain ⟨len, hfmt⟩ := exists_format hop
      rcases lt_or_ge (rest.length + 1) len with hlen | hlen
      · exact .inr ⟨clearReserved_of_short hfmt hlen, _, decode_of_short hfmt hlen⟩
      · obtain ⟨i, _, hi⟩ := exists_beginsWith hfmt hlen
        exact .inl ⟨i, hi⟩
    · exact .inr ⟨clearReserved_of_unassigned hop rest, _, fun pol => decode_of_unassigned hop pol rest⟩

/-! ### The statements -/

/-- Settles O17: cleared of their reserved bits the bytes are the encoding; were a bit set, the decoder would refuse
them under `trap`, where it accepts the encoding. -/
theorem encodeOfDecodeIsIdentity : Obligations.EncodeOfDecodeIsIdentity := by
  intro pol bytes i h
  have hi : BeginsWith bytes i := beginsWith_of_decode h
  have hencode (hclear : clearReserved bytes = bytes) : encode i = bytes.take i.length := by
    rw [hi.encode_eq, hclear]
  refine ⟨⟨fun henc => ?_, hencode⟩, fun htrap => hencode ?_⟩
  · by_contra hset
    have hrefused := hi.decode_take .trap []
    rw [← henc, decodeOfEncodeIsIdentity .trap i [] (wellFormed_of_decode h), if_pos ⟨rfl, hset⟩] at hrefused
    exact nomatch hrefused
  · by_contra hset
    rw [hi.decode_eq, if_pos ⟨htrap, hset⟩] at h
    exact nomatch h

/-- Settles O14: with all its bytes there, an assigned opcode is accepted or refused for its reserved bits. -/
theorem truncatedExactlyWhenBytesAreMissing : Obligations.TruncatedExactlyWhenBytesAreMissing := by
  intro pol op len rest hop
  refine ⟨fun h => by_contra fun hlen => ?_, fun hlen => decode_of_short hop hlen pol⟩
  obtain ⟨i, _, hi⟩ := exists_beginsWith hop (not_lt.1 hlen)
  exact nomatch hi.decode_error h

/-- R78, the decoder's part: UnknownOpcode is for the 252 unassigned opcodes alone. -/
theorem decode_eq_unknownOpcode_iff (pol : RsvPolicy) (op : Byte) (rest : List Byte) :
    decode pol (op :: rest) = .error .unknownOpcode ↔ op ∉ [0x43#8, 0xB2#8, 0x50#8, 0xC8#8] := by
  refine ⟨fun h hop => ?_, fun hop => decode_of_unassigned hop pol rest⟩
  obtain ⟨len, hfmt⟩ := exists_format hop
  rcases lt_or_ge (rest.length + 1) len with hlen | hlen
  · exact nomatch (decode_of_short hfmt hlen pol).symm.trans h
  · obtain ⟨i, _, hi⟩ := exists_beginsWith hfmt hlen
    exact nomatch hi.decode_error h

/-- Settles O13: the decoder's refusal, and the step that enters the Faulted state with it. -/
theorem unassignedOpcodesAreIllegal : Obligations.UnassignedOpcodesAreIllegal := by
  refine ⟨decode_eq_unknownOpcode_iff, fun s op rest hen hdrop hop => ?_⟩
  have hpc : s.pc < s.prog.length := by
    have := congrArg List.length hdrop
    rw [List.length_drop, List.length_cons] at this
    omega
  have hdec : decode s.cfg.rsvPolicy (s.prog.drop s.pc) = .error .unknownOpcode :=
    hdrop ▸ decode_of_unassigned hop _ rest
  exact ⟨_, (step_of_enabled hen).trans (stepRunning_of_error hpc hdec), s.sameMachine_raise _,
    ⟨rfl, rfl, rfl, rfl, rfl, rfl⟩⟩

/-- Settles O15, for bytes that begin with a whole instruction and for bytes that do not. -/
theorem reservedBitsFollowPolicy : Obligations.ReservedBitsFollowPolicy := by
  intro bytes
  rcases beginsWith_or_refused bytes with ⟨i, hi⟩ | ⟨hclear, e, he⟩
  · refine ⟨by rw [hi.decode_ignore, hi.decode_clearReserved], fun hclear => ?_, fun hset j _ => ?_⟩
    · rw [hi.decode_ignore, ← hi.decode_clearReserved .trap, hclear]
    · rw [hi.decode_eq, if_pos ⟨rfl, hset⟩]
  · exact ⟨by rw [hclear, he, he], fun _ => by rw [he, he], fun hset => absurd hclear hset⟩

/-- Settles O19, answer by answer. -/
theorem decodeReadsOnlyItsOwnBytes : Obligations.DecodeReadsOnlyItsOwnBytes := by
  intro pol bytes rest
  refine ⟨fun i h => ?_, fun h => ?_, fun op len hop hhead h => ?_, fun h hlength => ?_⟩
  · rw [(beginsWith_of_decode h).decode_take_append, h]
  · match bytes with
    | op :: tail => exact decode_of_unassigned ((decode_eq_unknownOpcode_iff pol op tail).1 h) pol rest
  · match bytes with
    | op' :: tail =>
      obtain rfl : op' = op := Option.some.inj hhead
      have hlen : len ≤ tail.length + 1 := not_lt.1 fun hlt =>
        nomatch (decode_of_short hop hlt pol).symm.trans h
      obtain ⟨i, rfl, hi⟩ := exists_beginsWith hop hlen
      rw [hi.decode_take_append, h]
  · match bytes with
    | [] =>
      obtain rfl : rest = [] := List.length_eq_zero_iff.1 hlength.symm
      rfl
    | op :: tail =>
      have hop : op ∈ [0x43#8, 0xB2#8, 0x50#8, 0xC8#8] := by_contra fun hop =>
        nomatch (decode_of_unassigned hop pol tail).symm.trans h
      obtain ⟨len, hfmt⟩ := exists_format hop
      have hlen : tail.length + 1 < len := (truncatedExactlyWhenBytesAreMissing pol op len tail hfmt).1 h
      have hsame : tail.length + 1 = rest.length + 1 := hlength
      exact decode_of_short hfmt (hsame ▸ hlen) pol

/-- Settles O12: the words are the encodings of their instructions. -/
theorem writtenOutWordsDecode : Obligations.WrittenOutWordsDecode := fun pol rest =>
  ⟨decodeOfEncodeIsIdentity pol (.load 28036591 17) rest rfl, decodeOfEncodeIsIdentity pol (.read 21 37 10) rest rfl,
    decodeOfEncodeIsIdentity pol (.write 21 10) rest rfl, decodeOfEncodeIsIdentity pol (.add 3 1024 4) rest rfl⟩

end Sys2Proof

/-! PROOFS. The statements about the program a run executes: decoding a buffer from offset 0 against the steps of the
run (R81, R104). -/

namespace Sys2Proof

/-! ### Decoding a program buffer (R74, R81) -/

theorem decodeAll_nil (pol : RsvPolicy) (fuel : Nat) : decodeAll pol fuel [] = .ok [] := by
  cases fuel <;> rfl

theorem length_drop_length_le (b : Byte) (bs : List Byte) (i : Instr) :
    ((b :: bs).drop i.length).length ≤ bs.length := by
  have := (length_bounds i).1
  rw [List.length_drop, List.length_cons]
  omega

/-- As many steps as there are bytes are enough: more change nothing. -/
theorem decodeAll_congr_fuel {pol : RsvPolicy} {n m : Nat} {bytes : List Byte} (hn : bytes.length ≤ n)
    (hm : bytes.length ≤ m) : decodeAll pol n bytes = decodeAll pol m bytes := by
  induction n generalizing m bytes with
  | zero =>
    obtain rfl : bytes = [] := List.length_eq_zero_iff.1 (Nat.le_zero.1 hn)
    rw [decodeAll_nil, decodeAll_nil]
  | succ n ih =>
    match bytes, m with
    | [], m => rw [decodeAll_nil, decodeAll_nil]
    | b :: bs, m + 1 =>
      cases hdec : decode pol (b :: bs) with
      | error e => simp only [decodeAll, hdec]
      | ok i =>
        have hle := length_drop_length_le b bs i
        simp only [decodeAll, hdec,
          ih (hle.trans (Nat.le_of_succ_le_succ hn)) (hle.trans (Nat.le_of_succ_le_succ hm))]

@[simp] theorem decodeProgram_nil (pol : RsvPolicy) : decodeProgram pol [] = .ok [] := rfl

theorem decodeProgram_of_error {pol : RsvPolicy} {bytes : List Byte} {e : IllegalSub} (hne : bytes ≠ [])
    (h : decode pol bytes = .error e) : decodeProgram pol bytes = .error e := by
  match bytes with
  | b :: bs => simp only [decodeProgram, List.length_cons, decodeAll, h]

theorem decodeProgram_of_ok {pol : RsvPolicy} {bytes : List Byte} {i : Instr} (h : decode pol bytes = .ok i) :
    decodeProgram pol bytes = (decodeProgram pol (bytes.drop i.length)).map (i :: ·) := by
  match bytes with
  | b :: bs =>
    simp only [decodeProgram, List.length_cons, decodeAll, h]
    rw [decodeAll_congr_fuel (length_drop_length_le b bs i) le_rfl]
    cases decodeAll pol ((b :: bs).drop i.length).length ((b :: bs).drop i.length) <;> rfl

/-- A well-formed buffer is empty, or an instruction and a well-formed rest. -/
theorem decodeProgram_cases {pol : RsvPolicy} {bytes : List Byte} {is : List Instr}
    (h : decodeProgram pol bytes = .ok is) :
    (bytes = [] ∧ is = []) ∨
    ∃ i js, decode pol bytes = .ok i ∧ decodeProgram pol (bytes.drop i.length) = .ok js ∧ is = i :: js := by
  match bytes with
  | [] => exact .inl ⟨rfl, (Except.ok.inj h).symm⟩
  | b :: bs =>
    cases hdec : decode pol (b :: bs) with
    | error e => exact nomatch (decodeProgram_of_error (List.cons_ne_nil b bs) hdec).symm.trans h
    | ok i =>
      rw [decodeProgram_of_ok hdec] at h
      cases hrest : decodeProgram pol ((b :: bs).drop i.length) with
      | error e => exact nomatch hrest ▸ h
      | ok js => exact .inr ⟨i, js, rfl, hrest, (Except.ok.inj (hrest ▸ h)).symm⟩

/-- Bytes behind a well-formed buffer are decoded after its instructions. -/
theorem decodeProgram_append {pol : RsvPolicy} {bytes : List Byte} {is : List Instr}
    (h : decodeProgram pol bytes = .ok is) (rest : List Byte) :
    decodeProgram pol (bytes ++ rest) = (decodeProgram pol rest).map (is ++ ·) := by
  induction is generalizing bytes with
  | nil =>
    rcases decodeProgram_cases h with ⟨rfl, _⟩ | ⟨_, _, _, _, hcons⟩
    · rw [List.nil_append]
      cases decodeProgram pol rest <;> rfl
    · exact nomatch hcons
  | cons i is ih =>
    rcases decodeProgram_cases h with ⟨_, hnil⟩ | ⟨_, _, hdec, hrest, ⟨⟩⟩
    · exact nomatch hnil
    · have hlen : i.length ≤ bytes.length := length_le_of_decode hdec
      have hwhole : decode pol (bytes ++ rest) = .ok i := by
        rw [← hdec, ← (beginsWith_of_decode hdec).decode_take_append pol (bytes.drop i.length ++ rest),
          ← List.append_assoc, List.take_append_drop]
      rw [decodeProgram_of_ok hwhole, List.drop_append_of_le_length hlen, ih hrest]
      cases decodeProgram pol rest <;> rfl

/-- The bytes of one instruction are a program of that instruction. -/
theorem decodeProgram_take_of_decode {pol : RsvPolicy} {bytes : List Byte} {i : Instr} (h : decode pol bytes = .ok i) :
    decodeProgram pol (bytes.take i.length) = .ok [i] := by
  have htake : decode pol (bytes.take i.length) = .ok i := by
    rw [← h, ← (beginsWith_of_decode h).decode_take_append pol [], List.append_nil]
  rw [decodeProgram_of_ok htake, List.drop_take_self, decodeProgram_nil]
  rfl

/-- One more instruction behind the bytes before `pc` (R104). -/
theorem decodeProgram_take_add {pol : RsvPolicy} {prog : List Byte} {pc : Nat} {is : List Instr} {i : Instr}
    (h : decodeProgram pol (prog.take pc) = .ok is) (hdec : decode pol (prog.drop pc) = .ok i) :
    decodeProgram pol (prog.take (pc + i.length)) = .ok (is ++ [i]) := by
  rw [List.take_add, decodeProgram_append h, decodeProgram_take_of_decode hdec]
  rfl

/-- The first bad offset of a buffer whose bytes before it are well formed decides how its decoding is refused. -/
theorem decodeProgram_of_error_at {pol : RsvPolicy} {prog : List Byte} {pc : Nat} {is : List Instr} {e : IllegalSub}
    (h : decodeProgram pol (prog.take pc) = .ok is) (hpc : pc < prog.length)
    (hdec : decode pol (prog.drop pc) = .error e) : decodeProgram pol prog = .error e := by
  have hne : prog.drop pc ≠ [] := by simpa using hpc
  rw [← List.take_append_drop pc prog, decodeProgram_append h, decodeProgram_of_error hne hdec]
  rfl

end Sys2Proof

namespace Sys2Proof.Machine

/-! ### The program a run has completed (R104, R111) -/

@[simp] theorem State.executed_emit (s : State) (ev : TraceEvent) :
    (s.emit ev).executed = s.executed ++ [ev.instr] := by
  simp [State.executed]

theorem State.executed_congr {s t : State} (h : t.trace = s.trace) : t.executed = s.executed := by
  rw [State.executed, h, State.executed]

/-- Settles O49: a step that halts or faults moves neither `pc` nor the events, and one that completes an instruction
puts it behind both. -/
theorem stepKeepsExecutedProgram : Obligations.StepKeepsExecutedProgram := by
  refine ⟨fun cfg prog => rfl, fun s t hs h => ?_⟩
  rcases step_outcomes h with ⟨_, hsame⟩ | ⟨_, i, u, hdec, _, hc, rfl⟩
  · rw [hsame.cfg, hsame.prog, hsame.pc, State.executed_congr hsame.trace]
    exact hs
  · rw [State.executed_emit, State.executed_congr (s := s) (t := u.advance i.length) hc.trace]
    show decodeProgram u.cfg.rsvPolicy (u.prog.take (u.pc + i.length)) = _
    rw [hc.cfg, hc.prog, hc.pc]
    exact decodeProgram_take_add hs hdec

/-! ### The end of a faulted run (R153) -/

/-- A property that every step keeps holds of the state a run ends in. -/
theorem runToEnd_keeps {P : State → Prop} (hstep : ∀ s t, P s → step s = .next t → P t) {fuel : Nat} {s t : State}
    (hs : P s) (h : runToEnd fuel s = .next t) : P t := by
  induction fuel generalizing s with
  | zero => exact Host.Outcome.next.inj h ▸ hs
  | succ fuel ih =>
    rw [runToEnd] at h
    split at h
    · exact Host.Outcome.next.inj h ▸ hs
    · exact Host.Outcome.next.inj h ▸ hs
    · split at h
      · exact ih (hstep _ _ hs ‹_›) h
      · exact nomatch h
      · exact nomatch h

/-- The fault record is that of the instruction at `fault_pc`, which the buffer holds and which did not execute. -/
structure State.FaultExplained (t : State) : Prop where
  faultPc : t.faultPc = t.pc
  inside : t.pc < t.prog.length
  illegal : t.cause = .illegalInstruction →
    ∃ e, decode t.cfg.rsvPolicy (t.prog.drop t.pc) = .error e ∧ t.sub = illegalSubCode e
  memory : t.cause = .memoryFault → ∃ i, decode t.cfg.rsvPolicy (t.prog.drop t.pc) = .ok i ∧ addressRefused t i

theorem step_faultExplained {s t : State} (h : step s = .next t) (hf : t.run = .faulted) : t.FaultExplained := by
  obtain ⟨hen, ⟨_, rfl⟩ | ⟨hpc, e, hdec, rfl⟩ | ⟨hpc, i, u, hdec, hex, rfl⟩⟩ := step_cases h
  · exact nomatch hf
  · exact ⟨rfl, hpc, fun _ => ⟨e, hdec, rfl⟩, nofun⟩
  · rcases exec_outcomes hex with ⟨_, hc⟩ | ⟨href, sub, a, _, rfl⟩
    · have hu : u.run = .running := hc.run.trans hen.running
      rw [State.retire_of_running i hu] at hf
      exact nomatch hu.symm.trans hf
    · rw [State.retire_of_faulted i rfl]
      exact ⟨rfl, hpc, nofun, fun _ => ⟨i, hdec, (addressRefused_congr fun _ _ => rfl).1 href⟩⟩

/-- What every state of the run of `prog` satisfies. -/
structure State.SoundRunOf (cfg : Config) (prog : List Byte) (t : State) : Prop where
  cfg : t.cfg = cfg
  prog : t.prog = prog
  executed : decodeProgram t.cfg.rsvPolicy (t.prog.take t.pc) = .ok t.executed
  fault : t.run = .faulted → t.FaultExplained

theorem step_inputs {s t : State} (h : step s = .next t) : t.cfg = s.cfg ∧ t.prog = s.prog := by
  rcases step_outcomes h with ⟨_, hsame⟩ | ⟨_, i, u, _, _, hc, rfl⟩
  · exact ⟨hsame.cfg, hsame.prog⟩
  · exact ⟨hc.cfg, hc.prog⟩

theorem execute_sound {cfg : Config} {prog : List Byte} {t : State} (h : execute cfg prog = .next t) :
    State.SoundRunOf cfg prog t := by
  have hreset : State.SoundRunOf cfg prog (State.resetWith cfg prog) :=
    ⟨rfl, rfl, stepKeepsExecutedProgram.1 cfg prog, nofun⟩
  refine runToEnd_keeps (fun s t hs hstep => ?_) hreset h
  obtain ⟨hcfg, hprog⟩ := step_inputs hstep
  exact ⟨hcfg.trans hs.cfg, hprog.trans hs.prog, stepKeepsExecutedProgram.2 s t hs.executed hstep,
    step_faultExplained hstep⟩

/-- Settles O42: the instructions before `fault_pc` are the completed ones, and the buffer's decoding stops where the
run did. -/
theorem faultedRunExecutedTheProgramUpToTheFault : Obligations.FaultedRunExecutedTheProgramUpToTheFault := by
  intro cfg prog t h hf
  obtain ⟨rfl, rfl, hexec, hfault⟩ := execute_sound h
  obtain ⟨hpc, hinside, hillegal, hmemory⟩ := hfault hf
  rw [hpc]
  refine ⟨hexec, fun hc => ?_, hmemory⟩
  obtain ⟨e, hdec, hsub⟩ := hillegal hc
  exact ⟨e, decodeProgram_of_error_at hexec hinside hdec, hsub, hdec⟩

end Sys2Proof.Machine

/-! PROOFS. The statements about the assembler (R90 to R98). -/

namespace Sys2Proof.Machine

/-! ### What assembled text decodes to (R94, R96) -/

theorem decode_encodeAsm (pol : RsvPolicy) (i : AsmInstr) (rest : List Byte) :
    decode pol (encodeAsm i ++ rest) = .ok (asmToInstr i) := by
  cases i with
  | load const reg =>
    rw [encodeAsm, decode_encodeLoad, regOfField_ofInt_val, BitVec.toNat_ofInt]
    rfl
  | read srcReg offset dstReg =>
    rw [encodeAsm, decode_encodeRead, regOfField_ofInt_val, regOfField_ofInt_val, BitVec.toNat_ofInt]
    rfl
  | write srcReg dstReg =>
    rw [encodeAsm, decode_encodeWrite, regOfField_ofInt_val, regOfField_ofInt_val]
    rfl
  | add srcReg addr addrReg =>
    rw [encodeAsm, decode_encodeAdd, regOfField_ofInt_val, regOfField_ofInt_val, BitVec.toNat_ofInt]
    rfl

theorem length_encodeAsm (i : AsmInstr) : (encodeAsm i).length = (asmToInstr i).length := by
  cases i <;> rfl

theorem decodeProgram_encodeAsm (pol : RsvPolicy) (is : List AsmInstr) :
    decodeProgram pol (is.flatMap encodeAsm) = .ok (is.map asmToInstr) := by
  induction is with
  | nil => rfl
  | cons i is ih =>
    rw [List.flatMap_cons, decodeProgram_of_ok (decode_encodeAsm pol i _), ← length_encodeAsm, List.drop_left, ih]
    rfl

/-- Settles O43, by induction on the assembled instructions. -/
theorem assembledTextDecodesToItsInstructions : Obligations.AssembledTextDecodesToItsInstructions := by
  intro pol text bytes h
  rw [assembleBytes] at h
  split at h
  · rename_i is his
    obtain rfl := Except.ok.inj h
    exact ⟨by rw [programWellFormed, decodeProgram_encodeAsm], is, his, decodeProgram_encodeAsm pol is⟩
  · exact nomatch h

/-! ### Lines in source order (R96) -/

theorem assembleLines_cons_of_error {line : List Char} {k : AsmErrorKind} (h : assembleLine line = .error k) (n : Nat)
    (lines : List (List Char)) : assembleLines n (line :: lines) = .error { line := n, kind := k } := by
  simp only [assembleLines, h]

theorem assembleLines_cons_of_ok {line : List Char} {oi : Option AsmInstr} (h : assembleLine line = .ok oi) (n : Nat)
    (lines : List (List Char)) :
    assembleLines n (line :: lines) = (assembleLines (n + 1) lines).map (oi.toList ++ ·) := by
  simp only [assembleLines, h]
  cases assembleLines (n + 1) lines <;> rfl

/-- The first failing line, behind lines that assemble, is the one reported. -/
theorem assembleLines_append_of_error {before : List (List Char)} {line : List Char} {k : AsmErrorKind}
    (hbefore : ∀ l ∈ before, ∃ oi, assembleLine l = .ok oi) (hline : assembleLine line = .error k) (n : Nat)
    (after : List (List Char)) :
    assembleLines n (before ++ line :: after) = .error { line := n + before.length, kind := k } := by
  induction before generalizing n with
  | nil => exact assembleLines_cons_of_error hline n after
  | cons l before ih =>
    obtain ⟨⟨oi, hoi⟩, hbefore⟩ := List.forall_mem_cons.1 hbefore
    rw [List.cons_append, assembleLines_cons_of_ok hoi, ih hbefore, List.length_cons, Nat.add_right_comm]
    rfl

theorem exists_line_of_assembleLines_error {n : Nat} {lines : List (List Char)} {e : AsmError}
    (h : assembleLines n lines = .error e) :
    ∃ before line after, lines = before ++ line :: after ∧ (∀ l ∈ before, ∃ oi, assembleLine l = .ok oi) ∧
      assembleLine line = .error e.kind ∧ e.line = n + before.length := by
  induction lines generalizing n with
  | nil => exact nomatch h
  | cons line lines ih =>
    cases hline : assembleLine line with
    | error k =>
      obtain rfl := Except.error.inj ((assembleLines_cons_of_error hline n lines).symm.trans h)
      exact ⟨[], line, lines, rfl, by simp, hline, rfl⟩
    | ok oi =>
      rw [assembleLines_cons_of_ok hline] at h
      cases hrest : assembleLines (n + 1) lines with
      | ok is => exact nomatch hrest ▸ h
      | error e' =>
        obtain rfl : e' = e := Except.error.inj (hrest ▸ h)
        obtain ⟨before, bad, after, rfl, hbefore, hbad, hnum⟩ := ih hrest
        exact ⟨line :: before, bad, after, rfl, List.forall_mem_cons.2 ⟨⟨oi, hline⟩, hbefore⟩, hbad,
          by rw [hnum, List.length_cons, Nat.add_right_comm, Nat.add_assoc]⟩

/-- Lines that all assemble give their instructions, blank lines none. -/
theorem assembleLines_of_map_eq {lines : List (List Char)} {ois : List (Option AsmInstr)}
    (h : lines.map assembleLine = ois.map Except.ok) (n : Nat) :
    assembleLines n lines = .ok (ois.flatMap Option.toList) := by
  induction lines generalizing n ois with
  | nil =>
    obtain rfl : ois = [] := List.map_eq_nil_iff.1 h.symm
    rfl
  | cons line lines ih =>
    match ois with
    | oi :: ois =>
      obtain ⟨hline, hrest⟩ := List.cons.inj h
      rw [assembleLines_cons_of_ok hline, ih hrest]
      rfl

theorem exists_map_eq_of_assembleLines_ok {n : Nat} {lines : List (List Char)} {is : List AsmInstr}
    (h : assembleLines n lines = .ok is) :
    ∃ ois : List (Option AsmInstr), lines.map assembleLine = ois.map Except.ok ∧ is = ois.flatMap Option.toList := by
  induction lines generalizing n is with
  | nil => exact ⟨[], rfl, (Except.ok.inj h).symm⟩
  | cons line lines ih =>
    cases hline : assembleLine line with
    | error k => exact nomatch (assembleLines_cons_of_error hline n lines).symm.trans h
    | ok oi =>
      rw [assembleLines_cons_of_ok hline] at h
      cases hrest : assembleLines (n + 1) lines with
      | error e => exact nomatch hrest ▸ h
      | ok js =>
        obtain ⟨ois, hmap, rfl⟩ := ih hrest
        exact ⟨oi :: ois, by rw [List.map_cons, List.map_cons, hline, hmap], (Except.ok.inj (hrest ▸ h)).symm⟩

/-- Settles O44: what stands before the first failing line assembles, and its instructions are dropped. -/
theorem assemblyStopsAtTheFirstBadLine : Obligations.AssemblyStopsAtTheFirstBadLine := by
  refine ⟨fun n lines e => ⟨exists_line_of_assembleLines_error, ?_⟩,
    fun n lines is => ⟨exists_map_eq_of_assembleLines_ok, ?_⟩, fun text e h => by rw [assembleBytes, h]⟩
  · rintro ⟨before, line, after, rfl, hbefore, hline, hnum⟩
    rw [assembleLines_append_of_error hbefore hline, ← hnum]
  · rintro ⟨ois, hmap, rfl⟩
    exact assembleLines_of_map_eq hmap n

/-! ### One instruction: mnemonic, operand count, operands (R91, R98) -/

theorem assemble_load (operands : List (List Char)) : assemble mnemonicLoad operands = assembleLoad operands := rfl

theorem assemble_read (operands : List (List Char)) : assemble mnemonicRead operands = assembleRead operands := rfl

theorem assemble_write (operands : List (List Char)) : assemble mnemonicWrite operands = assembleWrite operands := rfl

theorem assemble_add (operands : List (List Char)) : assemble mnemonicAdd operands = assembleAdd operands := rfl

theorem assemble_of_unknown {m : List Char} (hm : m ∉ [mnemonicLoad, mnemonicRead, mnemonicWrite, mnemonicAdd])
    (operands : List (List Char)) : assemble m operands = .error .unknownMnemonic := by
  simp only [List.mem_cons, List.not_mem_nil, or_false, not_or] at hm
  obtain ⟨hload, hread, hwrite, hadd⟩ := hm
  rw [assemble, if_neg hload, if_neg hread, if_neg hwrite, if_neg hadd]

/-- A bad operand is InvalidOperand and no other error (R92, R93). -/
theorem registerOperand_ne_arityError (token : List Char) : registerOperand token ≠ .error .arityError := by
  rw [registerOperand]
  split <;> nofun

theorem integerOperand_ne_arityError (token : List Char) : integerOperand token ≠ .error .arityError := by
  rw [integerOperand]
  split <;> nofun

theorem bind_ne_error {ε α β : Type} {x : Except ε α} {f : α → Except ε β} {e : ε} (hx : x ≠ .error e)
    (hf : ∀ a, f a ≠ .error e) : x >>= f ≠ .error e := by
  cases x with
  | error e' => exact fun h => hx (congrArg _ (Except.error.inj h))
  | ok a => exact hf a

theorem assembleLoad_eq_arityError_iff (operands : List (List Char)) :
    assembleLoad operands = .error .arityError ↔ operands.length ≠ 2 := by
  match operands with
  | [] | [_] | _ :: _ :: _ :: _ => simp [assembleLoad]
  | [a, b] =>
    refine iff_of_false ?_ (not_not_intro rfl)
    exact bind_ne_error (integerOperand_ne_arityError a) fun _ =>
      bind_ne_error (registerOperand_ne_arityError b) nofun

theorem assembleRead_eq_arityError_iff (operands : List (List Char)) :
    assembleRead operands = .error .arityError ↔ operands.length ≠ 3 := by
  match operands with
  | [] | [_] | [_, _] | _ :: _ :: _ :: _ :: _ => simp [assembleRead]
  | [a, b, c] =>
    refine iff_of_false ?_ (not_not_intro rfl)
    exact bind_ne_error (registerOperand_ne_arityError a) fun _ =>
      bind_ne_error (integerOperand_ne_arityError b) fun _ => bind_ne_error (registerOperand_ne_arityError c) nofun

theorem assembleWrite_eq_arityError_iff (operands : List (List Char)) :
    assembleWrite operands = .error .arityError ↔ operands.length ≠ 2 := by
  match operands with
  | [] | [_] | _ :: _ :: _ :: _ => simp [assembleWrite]
  | [a, b] =>
    refine iff_of_false ?_ (not_not_intro rfl)
    exact bind_ne_error (registerOperand_ne_arityError a) fun _ =>
      bind_ne_error (registerOperand_ne_arityError b) nofun

theorem assembleAdd_eq_arityError_iff (operands : List (List Char)) :
    assembleAdd operands = .error .arityError ↔ operands.length ≠ 3 := by
  match operands with
  | [] | [_] | [_, _] | _ :: _ :: _ :: _ :: _ => simp [assembleAdd]
  | [a, b, c] =>
    refine iff_of_false ?_ (not_not_intro rfl)
    exact bind_ne_error (registerOperand_ne_arityError a) fun _ =>
      bind_ne_error (integerOperand_ne_arityError b) fun _ => bind_ne_error (registerOperand_ne_arityError c) nofun

/-- The operands of READ and ADD are checked left to right, and the first bad one is reported. -/
theorem assemble_threeOperands_of_error {m : List Char} (hm : m ∈ [mnemonicRead, mnemonicAdd]) :
    (∀ a b c k, registerOperand a = .error k → assemble m [a, b, c] = .error k) ∧
    (∀ a b c r k, registerOperand a = .ok r → integerOperand b = .error k → assemble m [a, b, c] = .error k) ∧
    ∀ a b c r n k, registerOperand a = .ok r → integerOperand b = .ok n → registerOperand c = .error k →
      assemble m [a, b, c] = .error k := by
  simp only [List.mem_cons, List.not_mem_nil, or_false] at hm
  rcases hm with rfl | rfl
  · simp only [assemble_read, assembleRead]
    exact ⟨fun a b c k ha => by rw [ha]; rfl, fun a b c r k ha hb => by rw [ha, hb]; rfl,
      fun a b c r n k ha hb hc => by rw [ha, hb, hc]; rfl⟩
  · simp only [assemble_add, assembleAdd]
    exact ⟨fun a b c k ha => by rw [ha]; rfl, fun a b c r k ha hb => by rw [ha, hb]; rfl,
      fun a b c r n k ha hb hc => by rw [ha, hb, hc]; rfl⟩

/-- Settles O45, clause by clause: each operand that is checked decides how the rest goes on. -/
theorem assemblerChecksInOrder : Obligations.AssemblerChecksInOrder := by
  refine ⟨fun m ops hm => assemble_of_unknown hm ops, fun m n ops hm => ?_,
    fun a b c r ha hb => ?_, fun a b c src o dst ha hb hc => ?_, fun a b src dst ha hb => ?_,
    fun a b c src o r ha hb hc => ?_, fun a b k ha => ?_, fun a b c k ha hb => ?_, fun a b k ha => ?_,
    fun a b r k ha hb => ?_, fun m hm => assemble_threeOperands_of_error hm⟩
  · simp only [List.mem_cons, List.not_mem_nil, or_false, Prod.mk.injEq] at hm
    rcases hm with ⟨rfl, rfl⟩ | ⟨rfl, rfl⟩ | ⟨rfl, rfl⟩ | ⟨rfl, rfl⟩
    · exact assembleLoad_eq_arityError_iff ops
    · exact assembleRead_eq_arityError_iff ops
    · exact assembleWrite_eq_arityError_iff ops
    · exact assembleAdd_eq_arityError_iff ops
  · rw [assemble_load, assembleLoad, ha, hb]
    rfl
  · rw [assemble_read, assembleRead, ha, hb, hc]
    rfl
  · rw [assemble_write, assembleWrite, ha, hb]
    rfl
  · rw [assemble_add, assembleAdd, ha, hb, hc]
    rfl
  · rw [assemble_load, assembleLoad, ha]
    rfl
  · rw [assemble_load, assembleLoad, ha, hb]
    rfl
  · rw [assemble_write, assembleWrite, ha]
    rfl
  · rw [assemble_write, assembleWrite, ha, hb]
    rfl

/-! ### Tokens (R92, R93) -/

/-- The number that decimal digits stand for, read in base 10. -/
abbrev decimal (ds : List Char) : Nat := ds.foldl (fun n d => 10 * n + (d.toNat - 48)) 0

theorem digitsValue_eq_some_iff {cs : List Char} {acc n : Nat} :
    digitsValue cs acc = some n ↔
      (∀ d ∈ cs, d.isDigit = true) ∧ cs.foldl (fun n d => 10 * n + (d.toNat - 48)) acc = n := by
  induction cs generalizing acc with
  | nil => simp [digitsValue]
  | cons c cs ih =>
    rw [digitsValue, List.forall_mem_cons, List.foldl_cons]
    split
    · rename_i hc
      rw [ih, and_iff_right hc]
      rfl
    · rename_i hc
      exact iff_of_false nofun fun h => hc h.1.1

theorem parseDigits_eq_some_iff {ds : List Char} {n : Nat} :
    parseDigits ds = some n ↔ ds ≠ [] ∧ (∀ d ∈ ds, d.isDigit = true) ∧ decimal ds = n := by
  match ds with
  | [] => exact iff_of_false nofun fun h => h.1 rfl
  | d :: ds => rw [parseDigits, digitsValue_eq_some_iff, and_iff_right (List.cons_ne_nil d ds)]

theorem parseRegister_eq_some_iff {token : List Char} {r : Fin 32} :
    parseRegister token = some r ↔ ∃ c ds, token = c :: ds ∧ (c = 'R' ∨ c = 'r') ∧ parseDigits ds = some r.val := by
  match token with
  | [] => exact iff_of_false nofun nofun
  | c :: ds =>
    rw [parseRegister]
    constructor
    · intro h
      split at h
      · rename_i hc
        split at h
        · rename_i n hn
          split at h
          · obtain rfl := Option.some.inj h
            exact ⟨c, ds, rfl, hc, hn⟩
          · exact nomatch h
        · exact nomatch h
      · exact nomatch h
    · rintro ⟨_, _, ⟨⟩, hc, hn⟩
      rw [if_pos hc, hn]
      exact dif_pos r.isLt

/-- Settles O46: the digits behind the `R`, and the number they stand for. -/
theorem registerTokensAreExactlyTheirDigits : Obligations.RegisterTokensAreExactlyTheirDigits := by
  intro token r
  simp only [parseRegister_eq_some_iff, parseDigits_eq_some_iff]

theorem parseInteger_minus (ds : List Char) :
    parseInteger ('-' :: ds) = (parseDigits ds).map fun n : Nat => -(n : Int) := rfl

theorem parseInteger_plus (ds : List Char) :
    parseInteger ('+' :: ds) = (parseDigits ds).map fun n : Nat => (n : Int) := rfl

/-- A token that begins with no sign is its digits; a sign is no digit. -/
theorem parseInteger_of_digits {ds : List Char} {n : Nat} (h : parseDigits ds = some n) :
    parseInteger ds = some (n : Int) := by
  obtain ⟨_, hdigits, _⟩ := parseDigits_eq_some_iff.1 h
  unfold parseInteger
  split
  · exact absurd (hdigits '-' (List.mem_cons_self ..)) (by decide)
  · exact absurd (hdigits '+' (List.mem_cons_self ..)) (by decide)
  · rw [h]
    rfl

theorem exists_digits_of_parseInteger {token : List Char} {v : Int} (h : parseInteger token = some v) :
    ∃ ds n, parseDigits ds = some n ∧
      ((token = ds ∧ v = n) ∨ (token = '+' :: ds ∧ v = n) ∨ (token = '-' :: ds ∧ v = -(n : Int))) := by
  unfold parseInteger at h
  split at h
  · obtain ⟨n, hn, rfl⟩ := Option.map_eq_some_iff.1 h
    exact ⟨_, n, hn, .inr (.inr ⟨rfl, rfl⟩)⟩
  · obtain ⟨n, hn, rfl⟩ := Option.map_eq_some_iff.1 h
    exact ⟨_, n, hn, .inr (.inl ⟨rfl, rfl⟩)⟩
  · obtain ⟨n, hn, rfl⟩ := Option.map_eq_some_iff.1 h
    exact ⟨_, n, hn, .inl ⟨rfl, rfl⟩⟩

/-- Settles O47: no sign, a plus or a minus before the digits. -/
theorem integerTokensAreSignedDecimals : Obligations.IntegerTokensAreSignedDecimals := by
  intro token v
  constructor
  · intro h
    obtain ⟨ds, n, hn, hform⟩ := exists_digits_of_parseInteger h
    obtain ⟨hne, hdigits, rfl⟩ := parseDigits_eq_some_iff.1 hn
    exact ⟨ds, hne, hdigits, hform⟩
  · rintro ⟨ds, hne, hdigits, hform⟩
    have hn : parseDigits ds = some (decimal ds) := parseDigits_eq_some_iff.2 ⟨hne, hdigits, rfl⟩
    rcases hform with ⟨rfl, rfl⟩ | ⟨rfl, rfl⟩ | ⟨rfl, rfl⟩
    · exact parseInteger_of_digits hn
    · rw [parseInteger_plus, hn]
      rfl
    · rw [parseInteger_minus, hn]
      rfl

end Sys2Proof.Machine

/-! PROOFS. The statement about source lines (R90). -/

namespace Sys2Proof.Machine

/-! ### White space at the two ends of a text (D14) -/

theorem notMem_of_isWhitespace {w : List Char} (hw : ∀ c ∈ w, c.isWhitespace = true) {d : Char}
    (hd : d.isWhitespace = false) : d ∉ w := fun hmem => Bool.false_ne_true (hd.symm.trans (hw d hmem))

theorem trimSpace_eq (cs : List Char) :
    trimSpace cs = (cs.dropWhile Char.isWhitespace).rdropWhile Char.isWhitespace := rfl

theorem trimSpace_append_left {w : List Char} (hw : ∀ c ∈ w, c.isWhitespace = true) (cs : List Char) :
    trimSpace (w ++ cs) = trimSpace cs := by
  rw [trimSpace, List.dropWhile_append_of_pos hw, trimSpace]

theorem trimSpace_of_isWhitespace {w : List Char} (hw : ∀ c ∈ w, c.isWhitespace = true) : trimSpace w = [] := by
  rw [← List.append_nil w, trimSpace_append_left hw]
  rfl

theorem trimSpace_append_right {w : List Char} (hw : ∀ c ∈ w, c.isWhitespace = true) (cs : List Char) :
    trimSpace (cs ++ w) = trimSpace cs := by
  have hrev : ∀ c ∈ w.reverse, c.isWhitespace = true := fun c hc => hw c (List.mem_reverse.1 hc)
  rw [trimSpace, List.dropWhile_append]
  split
  · rename_i hnil
    rw [List.isEmpty_iff, List.dropWhile_eq_nil_iff] at hnil
    rw [trimSpace_of_isWhitespace hnil]
    exact trimSpace_of_isWhitespace hw
  · rw [List.reverse_append, List.dropWhile_append_of_pos hrev, trimSpace]

/-- A text with no white space at its ends is trimmed already. -/
theorem trimSpace_eq_self {cs : List Char} (hhead : ∀ c ∈ cs.head?, c.isWhitespace = false)
    (hlast : ∀ c ∈ cs.getLast?, c.isWhitespace = false) : trimSpace cs = cs := by
  have hdrop : cs.dropWhile Char.isWhitespace = cs := by
    match cs with
    | [] => rfl
    | c :: cs => exact List.dropWhile_cons_of_neg (Bool.eq_false_iff.1 (hhead c rfl))
  rw [trimSpace_eq, hdrop, List.rdropWhile_eq_self_iff]
  exact fun hne => Bool.eq_false_iff.1 (hlast _ (List.getLast?_eq_some_getLast hne))

/-- Trimming drops white space at the two ends and nothing else. -/
theorem exists_eq_append_trimSpace (cs : List Char) : ∃ v w, cs = v ++ (trimSpace cs ++ w) ∧
    (∀ c ∈ v, c.isWhitespace = true) ∧ ∀ c ∈ w, c.isWhitespace = true := by
  refine ⟨cs.takeWhile Char.isWhitespace, (cs.dropWhile Char.isWhitespace).rtakeWhile Char.isWhitespace, ?_,
    fun c hc => List.mem_takeWhile_imp hc, fun c hc => List.mem_rtakeWhile_imp hc⟩
  rw [trimSpace_eq, List.rdropWhile_append_rtakeWhile, List.takeWhile_append_dropWhile]

theorem isWhitespace_getLast?_trimSpace {cs : List Char} : ∀ c ∈ (trimSpace cs).getLast?, c.isWhitespace = false := by
  intro c hc
  have hne : trimSpace cs ≠ [] := fun hnil => by simp [hnil] at hc
  rw [List.getLast?_eq_some_getLast hne, Option.mem_some_iff] at hc
  exact hc ▸ Bool.eq_false_iff.2 (List.rdropWhile_last_not _ _ hne)

theorem trimSpace_trimSpace (cs : List Char) : trimSpace (trimSpace cs) = trimSpace cs := by
  obtain ⟨v, w, hcs, hv, hw⟩ := exists_eq_append_trimSpace cs
  conv_rhs => rw [hcs, trimSpace_append_left hv, trimSpace_append_right hw]

/-- A text that begins with no white space, before a trimmed one. -/
theorem trimSpace_append_trimSpace {as cs : List Char} (hne : as ≠ []) (hhead : ∀ c ∈ as.head?, c.isWhitespace = false)
    (hcs : trimSpace cs ≠ []) : trimSpace (as ++ trimSpace cs) = as ++ trimSpace cs := by
  refine trimSpace_eq_self ?_ ?_
  · rwa [List.head?_append_of_ne_nil as hne]
  · rw [List.getLast?_append_of_ne_nil as hcs]
    exact isWhitespace_getLast?_trimSpace

/-! ### The pieces of a text between its separators -/

theorem splitAtChar_eq_splitOn (sep : Char) (cs : List Char) : splitAtChar sep cs = cs.splitOn sep := by
  induction cs with
  | nil => rfl
  | cons c cs ih =>
    rw [splitAtChar, List.splitOn_cons_eq_if_modifyHead, ih]
    by_cases hc : c = sep
    · rw [if_pos hc, if_pos (beq_iff_eq.2 hc)]
    · rw [if_neg hc, if_neg (mt beq_iff_eq.1 hc)]
      cases hsplit : cs.splitOn sep with
      | nil => exact absurd hsplit (List.splitOn_ne_nil sep cs)
      | cons piece pieces => rfl

theorem splitAtChar_intercalate {sep : Char} {pieces : List (List Char)} (hne : pieces ≠ [])
    (h : ∀ p ∈ pieces, sep ∉ p) : splitAtChar sep ([sep].intercalate pieces) = pieces := by
  rw [splitAtChar_eq_splitOn, List.splitOn_intercalate sep h hne]

theorem splitAtChar_of_notMem {sep : Char} {cs : List Char} (h : sep ∉ cs) : splitAtChar sep cs = [cs] := by
  rw [splitAtChar_eq_splitOn, List.splitOn_eq_singleton h]

theorem splitAtChar_append_cons (sep : Char) (as bs : List Char) :
    splitAtChar sep (as ++ sep :: bs) = splitAtChar sep as ++ splitAtChar sep bs := by
  simp only [splitAtChar_eq_splitOn, List.splitOn_append_cons_self]

theorem notMem_intercalate {sep d : Char} {pieces : List (List Char)} (hd : d ≠ sep) (h : ∀ p ∈ pieces, d ∉ p) :
    d ∉ [sep].intercalate pieces := by
  induction pieces with
  | nil => exact List.not_mem_nil
  | cons p ps ih =>
    obtain ⟨hp, hps⟩ := List.forall_mem_cons.1 h
    match ps with
    | [] => simpa [List.intercalate] using hp
    | q :: qs =>
      rw [List.intercalate_cons_cons]
      simp only [List.mem_append, List.mem_singleton, not_or]
      exact ⟨⟨hp, hd⟩, ih hps⟩

/-- White space before the operands is no part of the first of them. -/
theorem map_trimSpace_splitAtChar_append_left {w : List Char} (hw : ∀ c ∈ w, c.isWhitespace = true) (cs : List Char) :
    (splitAtChar ',' (w ++ cs)).map trimSpace = (splitAtChar ',' cs).map trimSpace := by
  have hcomma : ',' ∉ w := notMem_of_isWhitespace hw rfl
  by_cases hmem : ',' ∈ cs
  · obtain ⟨as, bs, rfl, has⟩ := List.eq_append_cons_of_mem hmem
    have happ : ',' ∉ w ++ as := fun h => (List.mem_append.1 h).elim hcomma has
    rw [← List.append_assoc, splitAtChar_append_cons, splitAtChar_append_cons, splitAtChar_of_notMem has,
      splitAtChar_of_notMem happ]
    simp [trimSpace_append_left hw]
  · have happ : ',' ∉ w ++ cs := fun h => (List.mem_append.1 h).elim hcomma hmem
    rw [splitAtChar_of_notMem happ, splitAtChar_of_notMem hmem]
    simp [trimSpace_append_left hw]

theorem eq_append_cons_of_mem_last {d : Char} {cs : List Char} (h : d ∈ cs) :
    ∃ as bs, cs = as ++ d :: bs ∧ d ∉ bs := by
  obtain ⟨as, bs, hrev, has⟩ := List.eq_append_cons_of_mem (List.mem_reverse.2 h)
  exact ⟨bs.reverse, as.reverse, by simpa using congrArg List.reverse hrev, mt List.mem_reverse.1 has⟩

/-- White space after the operands is no part of the last of them. -/
theorem map_trimSpace_splitAtChar_append_right {w : List Char} (hw : ∀ c ∈ w, c.isWhitespace = true)
    (cs : List Char) : (splitAtChar ',' (cs ++ w)).map trimSpace = (splitAtChar ',' cs).map trimSpace := by
  have hcomma : ',' ∉ w := notMem_of_isWhitespace hw rfl
  by_cases hmem : ',' ∈ cs
  · obtain ⟨as, bs, rfl, hbs⟩ := eq_append_cons_of_mem_last hmem
    have happ : ',' ∉ bs ++ w := fun h => (List.mem_append.1 h).elim hbs hcomma
    rw [List.append_assoc, List.cons_append, splitAtChar_append_cons, splitAtChar_append_cons,
      splitAtChar_of_notMem hbs, splitAtChar_of_notMem happ]
    simp [trimSpace_append_right hw]
  · have happ : ',' ∉ cs ++ w := fun h => (List.mem_append.1 h).elim hmem hcomma
    rw [splitAtChar_of_notMem happ, splitAtChar_of_notMem hmem]
    simp [trimSpace_append_right hw]

/-- White space around a list of operands is no part of any of them. -/
theorem map_trimSpace_splitAtChar_trimSpace (cs : List Char) :
    (splitAtChar ',' (trimSpace cs)).map trimSpace = (splitAtChar ',' cs).map trimSpace := by
  obtain ⟨v, w, hcs, hv, hw⟩ := exists_eq_append_trimSpace cs
  conv_rhs => rw [hcs, map_trimSpace_splitAtChar_append_left hv, map_trimSpace_splitAtChar_append_right hw]

theorem splitOperands_of_ne_nil {cs : List Char} (h : trimSpace cs ≠ []) :
    splitOperands cs = (splitAtChar ',' cs).map trimSpace := by
  rw [← map_trimSpace_splitAtChar_trimSpace, splitOperands]
  split
  · rename_i hnil
    exact absurd hnil h
  · rename_i hcons
    rw [hcons]

/-! ### One line (R90) -/

/-- A line is its text up to the first `;`. -/
theorem assembleLine_congr {line line' : List Char}
    (h : line.takeWhile (· != ';') = line'.takeWhile (· != ';')) : assembleLine line = assembleLine line' := by
  rw [assembleLine, h, assembleLine]

theorem ne_semicolon_of_notMem {line : List Char} (h : ';' ∉ line) : ∀ c ∈ line, (c != ';') = true :=
  fun _ hc => bne_iff_ne.2 (ne_of_mem_of_not_mem hc h)

theorem takeWhile_of_notMem {line : List Char} (h : ';' ∉ line) : line.takeWhile (· != ';') = line :=
  List.takeWhile_eq_self_iff.2 (ne_semicolon_of_notMem h)

theorem assembleLine_append_comment {line : List Char} (h : ';' ∉ line) (comment : List Char) :
    assembleLine (line ++ ';' :: comment) = assembleLine line := by
  apply assembleLine_congr
  rw [List.takeWhile_append_of_pos (ne_semicolon_of_notMem h), takeWhile_of_notMem h,
    List.takeWhile_cons_of_neg (by decide), List.append_nil]

theorem assembleLine_of_isWhitespace {line : List Char} (h : ∀ c ∈ line, c.isWhitespace = true) :
    assembleLine line = .ok none := by
  rw [assembleLine, takeWhile_of_notMem (notMem_of_isWhitespace h rfl), trimSpace_of_isWhitespace h]

/-- A trimmed line is its mnemonic up to the first white space, and its operands. -/
theorem assembleLine_of_trimSpace_eq {line mnemonic rest : List Char} {c : Char} (hline : ';' ∉ line)
    (htrim : trimSpace line = mnemonic ++ c :: rest) (hne : mnemonic ≠ [])
    (hmnemonic : ∀ d ∈ mnemonic, d.isWhitespace = false) (hc : c.isWhitespace = true) :
    assembleLine line = (assemble mnemonic (splitOperands (c :: rest))).map some := by
  have hpos : ∀ d ∈ mnemonic, (!d.isWhitespace) = true := fun d hd => by rw [hmnemonic d hd]; rfl
  have htake : (mnemonic ++ c :: rest).takeWhile (! ·.isWhitespace) = mnemonic := by
    rw [List.takeWhile_append_of_pos hpos]
    simp [hc]
  have hdrop : (mnemonic ++ c :: rest).dropWhile (! ·.isWhitespace) = c :: rest := by
    rw [List.dropWhile_append_of_pos hpos]
    simp [hc]
  obtain ⟨d, ds, rfl⟩ := List.exists_cons_of_ne_nil hne
  rw [List.cons_append] at htake hdrop
  rw [assembleLine, takeWhile_of_notMem hline, htrim, List.cons_append]
  simp only [htake, hdrop]
  cases assemble (d :: ds) (splitOperands (c :: rest)) <;> rfl

/-- An operand of a source line between its commas: white space, the operand itself, white space (R90). -/
structure OperandText (o : List Char × List Char × List Char) : Prop where
  before : ∀ c ∈ o.1, c.isWhitespace = true
  after : ∀ c ∈ o.2.2, c.isWhitespace = true
  ne_nil : o.2.1 ≠ []
  chars : ∀ c ∈ o.2.1, c ≠ ',' ∧ c ≠ ';'
  head : ∀ c ∈ o.2.1.head?, c.isWhitespace = false
  last : ∀ c ∈ o.2.1.getLast?, c.isWhitespace = false

namespace OperandText

variable {o : List Char × List Char × List Char}

theorem notMem (h : OperandText o) {d : Char} (hd : d = ',' ∨ d = ';') : d ∉ o.1 ++ o.2.1 ++ o.2.2 := by
  have hspace : d.isWhitespace = false := by rcases hd with rfl | rfl <;> rfl
  have hmid : d ∉ o.2.1 := fun hmem => hd.elim (h.chars d hmem).1 (h.chars d hmem).2
  simp only [List.mem_append, not_or]
  exact ⟨⟨notMem_of_isWhitespace h.before hspace, hmid⟩, notMem_of_isWhitespace h.after hspace⟩

theorem trimSpace_eq (h : OperandText o) : trimSpace (o.1 ++ o.2.1 ++ o.2.2) = o.2.1 := by
  rw [trimSpace_append_right h.after, trimSpace_append_left h.before, trimSpace_eq_self h.head h.last]

end OperandText

/-- The text of a line behind its mnemonic and the white space after it. -/
abbrev operandsText (operands : List (List Char × List Char × List Char)) : List Char :=
  [','].intercalate (operands.map fun o => o.1 ++ o.2.1 ++ o.2.2)

theorem map_trimSpace_splitAtChar_operandsText {operands : List (List Char × List Char × List Char)}
    (hne : operands ≠ []) (h : ∀ o ∈ operands, OperandText o) :
    (splitAtChar ',' (operandsText operands)).map trimSpace = operands.map fun o => o.2.1 := by
  have hcomma : ∀ p ∈ operands.map fun o => o.1 ++ o.2.1 ++ o.2.2, ',' ∉ p := by
    intro p hp
    obtain ⟨o, ho, rfl⟩ := List.mem_map.1 hp
    exact (h o ho).notMem (.inl rfl)
  rw [splitAtChar_intercalate (mt List.map_eq_nil_iff.1 hne) hcomma, List.map_map]
  exact List.map_congr_left fun o ho => (h o ho).trimSpace_eq

theorem semicolon_notMem_operandsText {operands : List (List Char × List Char × List Char)}
    (h : ∀ o ∈ operands, OperandText o) : ';' ∉ operandsText operands := by
  refine notMem_intercalate (by decide) fun p hp => ?_
  obtain ⟨o, ho, rfl⟩ := List.mem_map.1 hp
  exact (h o ho).notMem (.inr rfl)

theorem trimSpace_operandsText_ne_nil {operands : List (List Char × List Char × List Char)}
    (hne : operands ≠ []) (h : ∀ o ∈ operands, OperandText o) : trimSpace (operandsText operands) ≠ [] := by
  intro hnil
  have hpieces := map_trimSpace_splitAtChar_operandsText hne h
  rw [← map_trimSpace_splitAtChar_trimSpace, hnil] at hpieces
  have hmem : [] ∈ operands.map fun o => o.2.1 := hpieces ▸ List.mem_singleton.2 rfl
  obtain ⟨o, ho, hempty⟩ := List.mem_map.1 hmem
  exact (h o ho).ne_nil hempty

/-- A mnemonic, white space and operands are that instruction. Behind the mnemonic stands white space, the operands'
trimmed text, and white space that trimming the line drops. -/
theorem assembleLine_operandsText {mnemonic gap : List Char} {operands : List (List Char × List Char × List Char)}
    (hne : mnemonic ≠ []) (hmnemonic : ∀ c ∈ mnemonic, c.isWhitespace = false ∧ c ≠ ';') (hgap : gap ≠ [])
    (hspace : ∀ c ∈ gap, c.isWhitespace = true) (hops : operands ≠ []) (h : ∀ o ∈ operands, OperandText o) :
    assembleLine (mnemonic ++ gap ++ operandsText operands) =
      (assemble mnemonic (operands.map fun o => o.2.1)).map some := by
  obtain ⟨g, gs, rfl⟩ := List.exists_cons_of_ne_nil hgap
  obtain ⟨v, w, htext, hv, hw⟩ := exists_eq_append_trimSpace (operandsText operands)
  have htextne : trimSpace (operandsText operands) ≠ [] := trimSpace_operandsText_ne_nil hops h
  have hline : ';' ∉ mnemonic ++ g :: gs ++ operandsText operands := by
    simp only [List.mem_append, not_or]
    exact ⟨⟨fun hmem => (hmnemonic _ hmem).2 rfl, notMem_of_isWhitespace hspace rfl⟩, semicolon_notMem_operandsText h⟩
  have htrim : trimSpace (mnemonic ++ g :: gs ++ operandsText operands) =
      mnemonic ++ g :: (gs ++ (v ++ trimSpace (operandsText operands))) := by
    have hhead : ∀ c ∈ (mnemonic ++ g :: gs ++ v).head?, c.isWhitespace = false := by
      rw [List.append_assoc, List.head?_append_of_ne_nil mnemonic hne]
      exact fun c hc => (hmnemonic c (List.mem_of_mem_head? hc)).1
    calc trimSpace (mnemonic ++ g :: gs ++ operandsText operands)
      _ = trimSpace (mnemonic ++ g :: gs ++ v ++ trimSpace (operandsText operands) ++ w) := by
        conv_lhs => rw [htext]
        simp only [List.append_assoc]
      _ = mnemonic ++ g :: gs ++ v ++ trimSpace (operandsText operands) := by
        rw [trimSpace_append_right hw, trimSpace_append_trimSpace (by simp) hhead htextne]
      _ = mnemonic ++ g :: (gs ++ (v ++ trimSpace (operandsText operands))) := by simp
  have hoperands : splitOperands (g :: gs ++ (v ++ trimSpace (operandsText operands))) =
      operands.map fun o => o.2.1 := by
    rw [splitOperands_of_ne_nil, map_trimSpace_splitAtChar_append_left hspace,
      map_trimSpace_splitAtChar_append_left hv, map_trimSpace_splitAtChar_trimSpace,
      map_trimSpace_splitAtChar_operandsText hops h]
    rwa [trimSpace_append_left hspace, trimSpace_append_left hv, trimSpace_trimSpace]
  rw [assembleLine_of_trimSpace_eq hline htrim hne (fun c hc => (hmnemonic c hc).1) (hspace g (List.mem_cons_self ..)),
    ← List.cons_append, hoperands]

/-- Settles O48: lines, comments, blank lines, and a mnemonic with its operands. -/
theorem sourceLinesFollowTheGrammar : Obligations.SourceLinesFollowTheGrammar := by
  refine ⟨fun lines hne hlines => ?_, fun line comment h => assembleLine_append_comment h comment,
    fun line h => assembleLine_of_isWhitespace h, fun mnemonic gap operands hne hmnemonic hgap hspace hops h => ?_⟩
  · rw [assembleProgram, splitAtChar_intercalate hne hlines]
  · refine assembleLine_operandsText hne hmnemonic hgap hspace hops fun o ho => ?_
    obtain ⟨hbefore, hafter, hnil, hchars, hhead, hlast⟩ := h o ho
    exact ⟨hbefore, hafter, hnil, hchars, hhead, hlast⟩

end Sys2Proof.Machine

/-! PROOFS. The statements about the sequencer: one step, its trace event, the end of a run, the placed table word, and
what ADD stores. -/

namespace Sys2Proof.Machine

/-! ### The steps of an enabled state (R101, R103) -/

theorem step_of_end {s : State} (hen : s.Enabled) (hpc : s.pc = s.prog.length) : step s = .next s.halt :=
  (step_of_enabled hen).trans (stepRunning_of_end hpc)

theorem step_of_error {s : State} (hen : s.Enabled) (hpc : s.pc < s.prog.length) {e : IllegalSub}
    (hdec : decode s.cfg.rsvPolicy (s.prog.drop s.pc) = .error e) :
    step s = .next (s.raise (.illegalInstruction e)) :=
  (step_of_enabled hen).trans (stepRunning_of_error hpc hdec)

theorem step_of_ok {s u : State} (hen : s.Enabled) (hpc : s.pc < s.prog.length) {i : Instr}
    (hdec : decode s.cfg.rsvPolicy (s.prog.drop s.pc) = .ok i) (hex : exec i s = .next u) :
    step s = .next (s.retire i u) :=
  (step_of_enabled hen).trans (stepRunning_of_ok hpc hdec hex)

/-- An enabled step inside the program answers a next state, whatever the bytes at `pc` are. -/
theorem step_answers {s : State} (hen : s.Enabled) (hpc : s.pc ≤ s.prog.length) : ∃ t, step s = .next t := by
  rcases hpc.eq_or_lt with hend | hlt
  · exact ⟨_, step_of_end hen hend⟩
  · cases hdec : decode s.cfg.rsvPolicy (s.prog.drop s.pc) with
    | error e => exact ⟨_, step_of_error hen hlt hdec⟩
    | ok i =>
      obtain ⟨u, hex⟩ := exec_answers i s
      exact ⟨_, step_of_ok hen hlt hdec hex⟩

/-- A step reaches Halted from the end of the program, by the halt, and in no other way. -/
theorem step_halted {s t : State} (h : step s = .next t) (ht : t.run = .halted) :
    s.pc = s.prog.length ∧ t = s.halt := by
  obtain ⟨hen, ⟨hpc, rfl⟩ | ⟨_, e, _, rfl⟩ | ⟨_, i, u, _, hex, rfl⟩⟩ := step_cases h
  · exact ⟨hpc, rfl⟩
  · exact nomatch ht
  · rcases retire_outcomes hen.running hex with ⟨hr, _, _⟩ | ⟨hr, _⟩
    · exact nomatch hr.symm.trans ht
    · exact nomatch hr.symm.trans ht

theorem State.Enabled.of_step {s t : State} (h : step s = .next t) (ht : t.run = .running) : t.Enabled := by
  obtain ⟨hcfg, hprog⟩ := step_inputs h
  obtain ⟨⟨hW, hL, _⟩, _⟩ := step_cases h
  exact ⟨hcfg ▸ hW, by rwa [hcfg, hprog], ht⟩

/-- Settles O3, branch by branch of the step; a decoded instruction completes or raises. -/
theorem stepRunsTheDecodedInstruction : Obligations.StepRunsTheDecodedInstruction := by
  refine fun s hen => ⟨fun hpc => step_of_end hen hpc, fun hpc e hdec => ?_, fun hpc i hdec => ?_⟩
  · exact ⟨_, step_of_error hen hpc hdec, s.sameMachine_raise _, ⟨rfl, rfl, rfl, rfl, rfl, rfl⟩⟩
  · obtain ⟨u, hex⟩ := exec_answers i s
    have hstep : step s = .next (s.retire i u) := step_of_ok hen hpc hdec hex
    refine ⟨u, hex, ?_⟩
    rcases exec_outcomes hex with ⟨hn, hc⟩ | ⟨href, sub, a, _, rfl⟩
    · refine ⟨fun href => absurd href hn, fun _ => ?_⟩
      rw [hstep, State.retire_of_running i (hc.run.trans hen.running)]
      simp only [State.advance, State.emit, State.snapshot, hc.pc, hc.trace]
    · rw [State.retire_of_faulted i rfl] at hstep
      exact ⟨fun _ => ⟨hstep, rfl, s.sameMachine_raise _⟩, fun hn => absurd href hn⟩

theorem runCode_eq_one_iff (r : RunState) : runCode r = 1#2 ↔ r = .halted := by
  cases r <;> decide

/-- Settles O5: at `pc = L` the step is the halt, and no other step reaches Halted. -/
theorem normalHaltExactlyAtProgramEnd : Obligations.NormalHaltExactlyAtProgramEnd := by
  refine ⟨fun s t h => ?_, fun cfg hW => ?_, fun s t h ht hpc => ?_⟩
  · have hiff : t.run = .halted ↔ s.pc = s.prog.length := by
      refine ⟨fun ht => (step_halted h ht).1, fun hpc => ?_⟩
      rw [step_of_end (step_cases h).1 hpc] at h
      exact Host.Outcome.next.inj h ▸ rfl
    exact ⟨hiff, (runCode_eq_one_iff _).trans hiff⟩
  · have hen : (State.resetWith cfg []).Enabled := ⟨hW, Nat.zero_le _, rfl⟩
    exact ⟨_, step_of_end hen rfl, rfl, rfl, State.readReg_resetWith cfg [], State.readMem_resetWith cfg []⟩
  · exact ⟨_, step_of_end (.of_step h ht) hpc, rfl, t.sameMachine_halt⟩

/-! ### The program counter and the trace (R102, R105, R111) -/

/-- A decoded instruction inside the program ends inside it. -/
theorem pc_add_length_le {s : State} (hpc : s.pc ≤ s.prog.length) {i : Instr}
    (hdec : decode s.cfg.rsvPolicy (s.prog.drop s.pc) = .ok i) : s.pc + i.length ≤ s.prog.length := by
  have hlen := length_le_of_decode hdec
  rw [List.length_drop] at hlen
  omega

/-- A step keeps `pc`, or goes on and moves it behind the instruction it has completed (R26). -/
theorem step_pc_cases {s t : State} (h : step s = .next t) :
    (t.run ≠ .running ∧ t.pc = s.pc) ∨
    (t.run = .running ∧ ∃ i, decode s.cfg.rsvPolicy (s.prog.drop s.pc) = .ok i ∧ t.pc = s.pc + i.length) := by
  rcases step_outcomes h with ⟨hrun, hsame⟩ | ⟨hrun, i, u, hdec, _, hc, rfl⟩
  · exact .inl ⟨hrun, hsame.pc⟩
  · exact .inr ⟨hrun, i, hdec, congrArg (· + i.length) hc.pc⟩

theorem pc_add_three_le_of_step {s t : State} (h : step s = .next t) (ht : t.run = .running) : s.pc + 3 ≤ t.pc := by
  rcases step_pc_cases h with ⟨hrun, _⟩ | ⟨_, i, _, hpc⟩
  · exact absurd ht hrun
  · have hlen := (length_bounds i).1
    omega

/-- Settles O6: a step keeps `pc`, or moves it behind an instruction whose bytes are all there. -/
theorem pcNeverPassesProgramEnd : Obligations.PcNeverPassesProgramEnd := by
  intro s t hpc h
  rw [(step_inputs h).2]
  rcases step_pc_cases h with ⟨_, hstay⟩ | ⟨_, i, hdec, hmove⟩
  · rw [hstay]
    exact ⟨hpc, le_rfl, fun _ => pc_add_length_le hpc⟩
  · rw [hmove]
    exact ⟨pc_add_length_le hpc hdec, Nat.le_add_right .., fun _ => pc_add_length_le hpc⟩

/-- Settles O11: the event of a completed instruction is the one thing that changes the trace. -/
theorem oneTraceEventPerCompletedInstruction : Obligations.OneTraceEventPerCompletedInstruction := by
  intro s t h
  rcases step_outcomes h with ⟨hrun, hsame⟩ | ⟨hrun, i, u, hdec, _, hc, rfl⟩
  · exact ⟨fun _ => hsame.trace, fun hr => absurd hr hrun⟩
  · exact ⟨fun hr => absurd hrun hr, fun _ => ⟨i, hdec, congrArg (· + i.length) hc.pc, congrArg (_ :: ·) hc.trace⟩⟩

/-- Settles O10: a completed instruction's event starts where the chain ended and ends in the new state. -/
theorem stepKeepsTraceLinked : Obligations.StepKeepsTraceLinked := by
  intro s t hs h
  rcases step_outcomes h with ⟨_, hsame⟩ | ⟨_, i, u, _, _, hc, rfl⟩
  · have hsnap : t.snapshot = s.snapshot := by simp only [State.snapshot, hsame.x, hsame.ram, hsame.pc]
    rwa [hsame.trace, hsnap]
  · exact ⟨rfl, show traceLinked u.trace s.snapshot by rwa [hc.trace]⟩

/-! ### Whole runs (R100, R105, R110) -/

theorem runToEnd_of_ended (fuel : Nat) {s : State} (h : s.run ≠ .running) : runToEnd fuel s = .next s := by
  cases fuel with
  | zero => rfl
  | succ fuel =>
    cases hrun : s.run with
    | running => exact absurd hrun h
    | halted => simp only [runToEnd, hrun]
    | faulted => simp only [runToEnd, hrun]

theorem runToEnd_succ_of_step (fuel : Nat) {s t : State} (h : step s = .next t) :
    runToEnd (fuel + 1) s = runToEnd fuel t := by
  obtain ⟨⟨_, _, hrun⟩, _⟩ := step_cases h
  simp only [runToEnd, hrun, h]

/-- Settles O4: the step checks the run state, and the run stops at the first state that is not Running. -/
theorem noStepOnceTheRunHasEnded : Obligations.NoStepOnceTheRunHasEnded := by
  refine ⟨fun s t h => (step_cases h).1.running, fun s hW hL => ?_, fun fuel s h => runToEnd_of_ended fuel h⟩
  have hW' : ¬ s.cfg.W < 25 := not_lt.2 hW
  have hL' : ¬ s.cfg.progMax < s.prog.length := not_lt.2 hL
  exact ⟨fun hrun => by simp [step, hW', hL', hrun], fun hrun => by simp [step, hW', hL', hrun]⟩

/-- The run has ended once every 3 bytes behind `pc`, and one step more, have their unit of fuel (R105). -/
theorem runToEnd_ends {fuel : Nat} {s : State} (hs : s.Inv)
    (hfuel : s.run = .running → s.prog.length < s.pc + 3 * fuel) :
    ∃ t, runToEnd fuel s = .next t ∧ t.run ≠ .running ∧ t.Inv ∧ t.prog = s.prog := by
  induction fuel generalizing s with
  | zero => exact ⟨s, rfl, fun hrun => absurd (hfuel hrun) (not_lt.2 hs.pcBound), hs, rfl⟩
  | succ fuel ih =>
    by_cases hrun : s.run = .running
    · obtain ⟨t, h⟩ := step_answers ⟨hs.minW, hs.progFits, hrun⟩ hs.pcBound
      have hprog : t.prog = s.prog := (step_inputs h).2
      have hmeasure (ht : t.run = .running) : t.prog.length < t.pc + 3 * fuel := by
        have hlt := hfuel hrun
        have hpc := pc_add_three_le_of_step h ht
        rw [hprog]
        omega
      rw [runToEnd_succ_of_step fuel h, ← hprog]
      exact ih (stepKeepsInvariant s t hs h) hmeasure
    · exact ⟨s, runToEnd_of_ended _ hrun, hrun, hs, rfl⟩

/-- A run of the length `execute` gives it ends from every state of the invariant. -/
theorem runToEnd_div_three_ends {s : State} (hs : s.Inv) :
    ∃ t, runToEnd (s.prog.length / 3 + 1) s = .next t ∧ t.run ≠ .running ∧ t.Inv ∧ t.prog = s.prog :=
  runToEnd_ends hs fun _ => by omega

theorem State.Inv.length_executed_le {s : State} (hs : s.Inv) : s.executed.length ≤ s.prog.length / 3 := by
  have htrace := hs.traceBound
  have hpc := hs.pcBound
  rw [State.executed, List.length_reverse, List.length_map]
  omega

/-- Settles O8: the bytes behind `pc` are the measure, and each completed instruction has left an event. -/
theorem everyRunEnds : Obligations.EveryRunEnds := by
  refine ⟨fun s t => pc_add_three_le_of_step, fun s hs => ?_⟩
  obtain ⟨t, hrun, hended, ht, hprog⟩ := runToEnd_div_three_ends hs
  exact ⟨t, hrun, hended, hprog ▸ ht.length_executed_le⟩

theorem step_of_tooLong {s : State} (hW : 25 ≤ s.cfg.W) (hL : s.cfg.progMax < s.prog.length) :
    step s = .refused .programTooLong := by
  have hW' : ¬ s.cfg.W < 25 := not_lt.2 hW
  simp [step, hW', hL]

/-- Settles O40: reset meets the invariant for a program that fits, and the first step refuses a longer one. -/
theorem executeAnswersAnEndedRun : Obligations.ExecuteAnswersAnEndedRun := by
  refine fun cfg prog hW => ⟨fun hL => runToEnd_div_three_ends (.resetWith hW hL), fun hL => ?_⟩
  have hstep : step (State.resetWith cfg prog) = .refused .programTooLong := step_of_tooLong hW hL
  simp only [execute, runToEnd, State.resetWith_run, hstep]

theorem pc_eq_length_of_step_halted {s t : State} (h : step s = .next t) (ht : t.run = .halted) :
    t.pc = t.prog.length := by
  obtain ⟨hpc, rfl⟩ := step_halted h ht
  exact hpc

/-- Settles O41: at the end of the program the bytes before `pc` are all of its bytes. -/
theorem haltedRunExecutedTheWholeProgram : Obligations.HaltedRunExecutedTheWholeProgram := by
  intro cfg prog t h ht
  have hreset : (State.resetWith cfg prog).run = .halted → 0 = prog.length := nofun
  have hend : t.run = .halted → t.pc = t.prog.length :=
    runToEnd_keeps (fun _ _ _ => pc_eq_length_of_step_halted) hreset h
  obtain ⟨rfl, rfl, hexec, _⟩ := execute_sound h
  rw [hend ht, List.take_length] at hexec
  exact ⟨hexec, by rw [programWellFormed, hexec], hend ht⟩

/-! ### A table word placed where the next step fetches (R101, R110, R183) -/

theorem length_bytesOfNat (n w : Nat) : (bytesOfNat n w).length = n := by
  induction n with
  | zero => rfl
  | succ n ih => rw [bytesOfNat, List.length_cons, ih]

theorem length_tableBytes {nbits : Nat} (h : nbits ≤ 40) (w : Nat) : (tableBytes nbits w).length = 5 := by
  simp only [tableBytes, List.length_append, List.length_replicate, length_bytesOfNat]
  omega

theorem decode_tableBytes {nbits w : Nat} {i : Instr} (h : decodeTableWord nbits w = some i) :
    decode .trap (tableBytes nbits w) = .ok i := by
  rw [decodeTableWord] at h
  split at h
  · rename_i hdec
    exact Option.some.inj h ▸ hdec
  · exact nomatch h

/-- Bytes behind a decoded instruction change nothing (R71). -/
theorem decode_append_of_ok {pol : RsvPolicy} {bytes : List Byte} {i : Instr} (h : decode pol bytes = .ok i)
    (rest : List Byte) : decode pol (bytes ++ rest) = .ok i := by
  rw [← h, ← (beginsWith_of_decode h).decode_take_append pol (bytes.drop i.length ++ rest), ← List.append_assoc,
    List.take_append_drop]

theorem length_take_append_replicate (prog : List Byte) (n : Nat) :
    (prog.take n ++ List.replicate (n - prog.length) 0#8).length = n := by
  simp only [List.length_append, List.length_take, List.length_replicate]
  omega

theorem placeBytes_eq (prog : List Byte) (n : Nat) (bytes : List Byte) :
    placeBytes prog n bytes =
      (prog.take n ++ List.replicate (n - prog.length) 0#8) ++ (bytes ++ prog.drop (n + bytes.length)) := by
  rw [placeBytes, List.append_assoc _ bytes]

theorem length_placeBytes (prog : List Byte) (n : Nat) (bytes : List Byte) :
    (placeBytes prog n bytes).length = max prog.length (n + bytes.length) := by
  rw [placeBytes_eq, List.length_append, length_take_append_replicate, List.length_append, List.length_drop]
  omega

theorem drop_placeBytes (prog : List Byte) (n : Nat) (bytes : List Byte) :
    (placeBytes prog n bytes).drop n = bytes ++ prog.drop (n + bytes.length) := by
  rw [placeBytes_eq, List.drop_left' (length_take_append_replicate prog n)]

theorem getElem?_placeBytes_of_lt {prog : List Byte} {n k : Nat} (hkn : k < n) (hk : k < prog.length)
    (bytes : List Byte) : (placeBytes prog n bytes)[k]? = prog[k]? := by
  have htake : k < (prog.take n).length := by
    rw [List.length_take]
    omega
  rw [placeBytes, List.append_assoc, List.append_assoc, List.getElem?_append_left htake, List.getElem?_take_of_lt hkn]

theorem getElem?_placeBytes_of_le {prog bytes : List Byte} {n k : Nat} (hk : n + bytes.length ≤ k) :
    (placeBytes prog n bytes)[k]? = prog[k]? := by
  obtain ⟨j, rfl⟩ := Nat.exists_eq_add_of_le hk
  rw [Nat.add_assoc, ← List.getElem?_drop, drop_placeBytes, List.getElem?_append_right (Nat.le_add_right ..),
    Nat.add_sub_cancel_left, List.getElem?_drop, Nat.add_assoc]

/-- Settles O20: the bytes from `pc` on are the word's and then the buffer's own, which the decoder does not read. -/
theorem placedTableWordIsRun : Obligations.PlacedTableWordIsRun := by
  rintro s u nbits w i hW hpol hbits hL hroom hword rfl
  have hlen : (tableBytes nbits w).length = 5 := length_tableBytes hbits w
  have hlength : (s.withFetchWord nbits w).prog.length = max s.prog.length (s.pc + 5) :=
    hlen ▸ length_placeBytes s.prog s.pc _
  have hpc : s.pc < (s.withFetchWord nbits w).prog.length := by omega
  have hen : (s.withFetchWord nbits w).Enabled := ⟨hW, hlength ▸ max_le hL hroom, rfl⟩
  have hdec : decode s.cfg.rsvPolicy ((s.withFetchWord nbits w).prog.drop s.pc) = .ok i := by
    rw [hpol, State.withFetchWord, State.placeFetch_prog, drop_placeBytes]
    exact decode_append_of_ok (decode_tableBytes hword) _
  obtain ⟨t, hex⟩ := exec_answers i (s.withFetchWord nbits w)
  exact ⟨⟨t, hex, step_of_ok hen hpc hdec hex⟩, rfl, rfl, rfl, rfl, rfl,
    fun k hkpc hk => getElem?_placeBytes_of_lt hkpc hk _, fun k hk => getElem?_placeBytes_of_le (hlen ▸ hk)⟩

/-! ### The sum ADD stores (R109, R143) -/

/-- ADD with both addresses in bounds stores the sum of the register and the OLD cell. -/
theorem readMem_of_execAdd {s t : State} {srcReg addrReg : Fin 32} {addr : Nat} (hwf : s.ram.wf)
    (hr : s.readReg addrReg < 1024) (hw : addr < 1024) (h : exec (.add srcReg addr addrReg) s = .next t) :
    t.readMem addr = aluAdd s.cfg (s.readReg srcReg) (s.readMem (s.readReg addrReg)) := by
  rcases execAdd_cases h with ⟨_, _, rfl⟩ | ⟨hr', _⟩ | ⟨_, hw', _⟩
  · rw [State.readMem_writeMem hwf, if_pos rfl]
  · exact absurd hr (not_lt.2 hr')
  · exact absurd hw (not_lt.2 hw')

theorem aluAdd_of_lt {cfg : Config} {a b : Nat} (h : a + b < 2 ^ cfg.W) : aluAdd cfg a b = a + b := trunc_of_lt h

/-- Past `2^W` the sum of two register values has wrapped once. -/
theorem aluAdd_add_two_pow {cfg : Config} {a b : Nat} (ha : a < 2 ^ cfg.W) (hb : b < 2 ^ cfg.W)
    (h : 2 ^ cfg.W ≤ a + b) : aluAdd cfg a b + 2 ^ cfg.W = a + b := by
  have hlt : a + b - 2 ^ cfg.W < 2 ^ cfg.W := by omega
  rw [aluAdd, trunc, Nat.mod_eq_sub_mod h, Nat.mod_eq_of_lt hlt, Nat.sub_add_cancel h]

theorem aluAdd_comm (cfg : Config) (a b : Nat) : aluAdd cfg a b = aluAdd cfg b a :=
  congrArg (trunc cfg.W) (Nat.add_comm a b)

/-- Settles O28, from what ADD stores and the three laws of the sum. -/
theorem addIsExactBelowOverflow : Obligations.AddIsExactBelowOverflow := by
  intro s t srcReg addr addrReg hwf hsrc hcell hr hw h
  rw [readMem_of_execAdd hwf hr hw h]
  refine ⟨aluAdd_of_lt, aluAdd_add_two_pow hsrc hcell, fun u v hcfg huwf hur husrc hucell hv => ?_⟩
  rw [readMem_of_execAdd huwf hur hw hv, hcfg, husrc, hucell, aluAdd_comm]

end Sys2Proof.Machine

/-! PROOFS. The statements about data movement (R121 to R131), and the frame of every instruction. -/

namespace Sys2Proof.Machine

/-! ### What READ and WRITE answer, in bounds and out of bounds (R124, R130) -/

theorem exec_read_of_lt {s : State} {srcReg : Fin 32} {offset : Nat} (ha : s.readReg srcReg + offset < 1024)
    (dstReg : Fin 32) : exec (.read srcReg offset dstReg) s =
      .next (s.writeReg dstReg (s.readMem (s.readReg srcReg + offset))) :=
  boundsChecked_of_lt ha ..

theorem exec_read_of_le {s : State} {srcReg : Fin 32} {offset : Nat} (ha : 1024 ≤ s.readReg srcReg + offset)
    (dstReg : Fin 32) : exec (.read srcReg offset dstReg) s =
      .next (s.raise (.memoryFault .read (s.readReg srcReg + offset))) :=
  boundsChecked_of_le ha ..

theorem exec_write_of_lt {s : State} {dstReg : Fin 32} (ha : s.readReg dstReg < 1024) (srcReg : Fin 32) :
    exec (.write srcReg dstReg) s = .next (s.writeMem (s.readReg dstReg) (s.readReg srcReg)) :=
  boundsChecked_of_lt ha ..

theorem exec_write_of_le {s : State} {dstReg : Fin 32} (ha : 1024 ≤ s.readReg dstReg) (srcReg : Fin 32) :
    exec (.write srcReg dstReg) s = .next (s.raise (.memoryFault .write (s.readReg dstReg))) :=
  boundsChecked_of_le ha ..

theorem State.recordOf_raise (s : State) (e : Exception) :
    s.RecordOf (s.raise e) (exceptionCause e) (exceptionSub e) (exceptionAddr e) :=
  ⟨rfl, rfl, rfl, rfl, rfl, rfl⟩

/-- Settles O24: the store, and the laws of a canonical memory. -/
theorem writeStoresTheRegister : Obligations.WriteStoresTheRegister := by
  intro s srcReg dstReg hwf ha
  refine ⟨_, exec_write_of_lt ha srcReg, ?_, fun a hne => ?_, s.readReg_writeMem _ _, Memory.wf_write hwf _ _,
    s.sameControl_writeMem _ _⟩
  · rw [State.readMem_writeMem hwf, if_pos rfl]
  · rw [State.readMem_writeMem hwf, if_neg hne.symm]

/-- Settles O21: a register is at least as wide as the constant's 25 bits, so the extension keeps the number. -/
theorem loadWritesItsConstant : Obligations.LoadWritesItsConstant := by
  intro s const reg hW hconst
  have hzext : zext s.cfg.W const = const := zext_of_lt hconst hW
  refine ⟨_, rfl, ?_, fun r hr => s.readReg_writeReg_of_ne hr _, s.readMem_writeReg _ _, s.sameControl_writeReg _ _⟩
  rw [hzext, State.readReg_writeReg_self]

/-- Settles O22: the address is the sum in the state before the destination is written. -/
theorem readLoadsTheAddressedCell : Obligations.ReadLoadsTheAddressedCell :=
  fun s _ _ dstReg ha => ⟨_, exec_read_of_lt ha dstReg, s.readReg_writeReg_self _ _,
    fun _ hr => s.readReg_writeReg_of_ne hr _, s.readMem_writeReg _ _, s.sameControl_writeReg _ _⟩

/-- Settles O23: READ out of bounds is the fault entry with the exact sum. -/
theorem readOutOfBoundsFaults : Obligations.ReadOutOfBoundsFaults :=
  fun s _ _ dstReg ha => ⟨_, exec_read_of_le ha dstReg, s.sameMachine_raise _, s.recordOf_raise _⟩

/-- Settles O25: WRITE out of bounds is the fault entry with the refused address. -/
theorem writeOutOfBoundsFaults : Obligations.WriteOutOfBoundsFaults :=
  fun s srcReg _ ha => ⟨_, exec_write_of_le ha srcReg, s.sameMachine_raise _, s.recordOf_raise _⟩

/-! ### The frame of an instruction, however it ends (R26, R29, R42) -/

theorem exec_sameControl {i : Instr} {s t : State} (h : exec i s = .next t) (hn : ¬ addressRefused s i) :
    s.SameControl t :=
  (faultsArePrecise.2 i s t h).2 hn

theorem exec_sameMachine {i : Instr} {s t : State} (h : exec i s = .next t) (hr : addressRefused s i) :
    s.SameMachine t :=
  (faultsArePrecise.2 i s t h).1 hr

theorem exec_pc_cfg_prog_trace {i : Instr} {s t : State} (h : exec i s = .next t) :
    t.pc = s.pc ∧ t.cfg = s.cfg ∧ t.prog = s.prog ∧ t.trace = s.trace := by
  rcases exec_outcomes h with ⟨_, hc⟩ | ⟨_, _, _, _, rfl⟩
  · exact ⟨hc.pc, hc.cfg, hc.prog, hc.trace⟩
  · exact ⟨rfl, rfl, rfl, rfl⟩

/-- A cell keeps its value through every instruction but the WRITE or the ADD that addresses it. -/
theorem exec_readMem_of_not_addressed {i : Instr} {s t : State} (h : exec i s = .next t) {b : Nat}
    (hwrite : ∀ srcReg dstReg, i = .write srcReg dstReg → b ≠ s.readReg dstReg)
    (hadd : ∀ srcReg addr addrReg, i = .add srcReg addr addrReg → b ≠ addr) : t.readMem b = s.readMem b := by
  rcases exec_ram_cases h with hkept | ⟨a, v, _, hstore, hform⟩
  · exact State.readMem_congr hkept b
  · have hne : b ≠ a := by
      rcases hform with ⟨srcReg, dstReg, hi, rfl⟩ | ⟨srcReg, addrReg, hi⟩
      · exact hwrite srcReg dstReg hi
      · exact hadd srcReg a addrReg hi
    exact (congrArg (Memory.read · b) hstore).trans (Memory.read_write_of_ne s.ram hne v)

/-! The bounds checker refuses an instruction exactly when an address it computes is out of bounds (R108). -/

theorem addressRefused_read_iff (s : State) (srcReg : Fin 32) (offset : Nat) (dstReg : Fin 32) :
    addressRefused s (.read srcReg offset dstReg) ↔ inBounds (readAddress s srcReg offset) = false :=
  (inBounds_false_iff _).symm

theorem addressRefused_write_iff (s : State) (srcReg dstReg : Fin 32) :
    addressRefused s (.write srcReg dstReg) ↔ inBounds (writeAddress s dstReg) = false :=
  (inBounds_false_iff _).symm

theorem addressRefused_add_iff (s : State) (srcReg : Fin 32) (addr : Nat) (addrReg : Fin 32) :
    addressRefused s (.add srcReg addr addrReg) ↔
      ¬ (inBounds (addReadAddress s addrReg) = true ∧ inBounds (addWriteAddress addr) = true) := by
  rw [not_and_or, Bool.not_eq_true, Bool.not_eq_true, inBounds_false_iff, inBounds_false_iff]
  rfl

/-- Settles O29, from the frames of the registers, of the cells, and of the rest of the state. -/
theorem registerFormsFrame : Obligations.RegisterFormsFrame := by
  refine fun s t => ⟨fun const reg h => ?_, fun srcReg offset dstReg h => ?_⟩
  · exact ⟨fun r hr => exec_readReg_of_not_written h (mt List.mem_singleton.1 hr),
      fun a => exec_readMem_of_not_addressed h nofun nofun, exec_sameControl h id⟩
  · obtain ⟨hpc, hcfg, hprog, htrace⟩ := exec_pc_cfg_prog_trace h
    have href := addressRefused_read_iff s srcReg offset dstReg
    exact ⟨fun r hr => exec_readReg_of_not_written h (mt List.mem_singleton.1 hr),
      fun a => exec_readMem_of_not_addressed h nofun nofun, hpc, hcfg, hprog, htrace,
      fun hin => exec_sameControl h (mt href.1 (ne_false_of_eq_true hin)),
      fun hout => exec_sameMachine h (href.2 hout)⟩

/-- Settles O30, from the same frames: WRITE and ADD write no register, and address one cell. -/
theorem storingFormsFrame : Obligations.StoringFormsFrame := by
  refine fun s t => ⟨fun srcReg dstReg h => ?_, fun srcReg addr addrReg h => ?_⟩
  · obtain ⟨hpc, hcfg, hprog, htrace⟩ := exec_pc_cfg_prog_trace h
    have href := addressRefused_write_iff s srcReg dstReg
    refine ⟨fun r => exec_readReg_of_not_written h List.not_mem_nil, ?_, hpc, hcfg, hprog, htrace,
      fun hin => exec_sameControl h (mt href.1 (ne_false_of_eq_true hin)),
      fun hout => exec_sameMachine h (href.2 hout)⟩
    rintro _ rfl b hb
    exact exec_readMem_of_not_addressed h (by rintro _ _ ⟨⟩; exact hb) nofun
  · obtain ⟨hpc, hcfg, hprog, htrace⟩ := exec_pc_cfg_prog_trace h
    have href := addressRefused_add_iff s srcReg addr addrReg
    refine ⟨fun r => exec_readReg_of_not_written h List.not_mem_nil, ?_, hpc, hcfg, hprog, htrace,
      fun hin => exec_sameControl h (mt href.1 (not_not_intro hin)),
      fun hout => exec_sameMachine h (href.2 hout)⟩
    rintro _ rfl b hb
    exact exec_readMem_of_not_addressed h nofun (by rintro _ _ _ ⟨⟩; exact hb)

end Sys2Proof.Machine

/-! PROOFS. The statements about ADD (R141, R142): what it stores, and the order of its two bounds checks. -/

namespace Sys2Proof.Machine

/-! ### What ADD answers: a store, or the fault of the first address out of bounds -/

theorem exec_add_of_lt {s : State} {addr : Nat} {addrReg : Fin 32} (hr : s.readReg addrReg < 1024) (hw : addr < 1024)
    (srcReg : Fin 32) : exec (.add srcReg addr addrReg) s =
      .next (s.writeMem addr (aluAdd s.cfg (s.readReg srcReg) (s.readMem (s.readReg addrReg)))) :=
  (boundsChecked_of_lt hr ..).trans (boundsChecked_of_lt hw ..)

theorem exec_add_of_read_le {s : State} {addrReg : Fin 32} (hr : 1024 ≤ s.readReg addrReg) (srcReg : Fin 32)
    (addr : Nat) : exec (.add srcReg addr addrReg) s =
      .next (s.raise (.memoryFault .addRead (s.readReg addrReg))) :=
  boundsChecked_of_le hr ..

theorem exec_add_of_write_le {s : State} {addr : Nat} {addrReg : Fin 32} (hr : s.readReg addrReg < 1024)
    (hw : 1024 ≤ addr) (srcReg : Fin 32) : exec (.add srcReg addr addrReg) s =
      .next (s.raise (.memoryFault .addWrite addr)) :=
  (boundsChecked_of_lt hr ..).trans (boundsChecked_of_le hw ..)

/-- Settles O26: the store of a sum formed from the state before it, and the laws of a canonical memory. -/
theorem addStoresTheSum : Obligations.AddStoresTheSum := by
  intro s srcReg addr addrReg hwf hr hw
  have h := exec_add_of_lt hr hw srcReg
  refine ⟨_, h, readMem_of_execAdd hwf hr hw h, fun a hne => ?_, s.readReg_writeMem _ _, Memory.wf_write hwf _ _,
    s.sameControl_writeMem _ _⟩
  rw [State.readMem_writeMem hwf, if_neg hne.symm]

/-- Settles O27: each clause is the fault entry of the first check that refuses its address. -/
theorem addFaultsReadAddressFirst : Obligations.AddFaultsReadAddressFirst := by
  refine fun s srcReg addr addrReg => ⟨fun hr => ?_, fun hr hw => ?_⟩
  · exact ⟨_, exec_add_of_read_le hr srcReg addr, s.sameMachine_raise _, s.recordOf_raise _⟩
  · exact ⟨_, exec_add_of_write_le hr hw srcReg, s.sameMachine_raise _, s.recordOf_raise _⟩

end Sys2Proof.Machine

/-! PROOFS. The statement about the exceptions (R150, R151): each row of the table as one step. -/

namespace Sys2Proof.Machine

/-! ### A decoded instruction's step: fault entry when its meaning raises, else the run goes on (R101) -/

theorem step_of_raise {s : State} (hen : s.Enabled) (hpc : s.pc < s.prog.length) {i : Instr}
    (hdec : decode s.cfg.rsvPolicy (s.prog.drop s.pc) = .ok i) {e : Exception} (hex : exec i s = .next (s.raise e)) :
    step s = .next (s.raise e) :=
  (step_of_ok hen hpc hdec hex).trans (congrArg _ (State.retire_of_faulted i rfl))

theorem step_running_of_not_refused {s : State} (hen : s.Enabled) (hpc : s.pc < s.prog.length) {i : Instr}
    (hdec : decode s.cfg.rsvPolicy (s.prog.drop s.pc) = .ok i) (hn : ¬ addressRefused s i) :
    ∃ t, step s = .next t ∧ t.run = .running := by
  obtain ⟨u, hex⟩ := exec_answers i s
  have hu : u.run = .running := (exec_sameControl hex hn).run.trans hen.running
  exact ⟨_, step_of_ok hen hpc hdec hex, by rw [State.retire_of_running i hu]; exact hu⟩

/-- A step that enters a fault leaves the exception's record, and nothing else is changed (R151). -/
theorem step_recorded {s : State} {e : Exception} (h : step s = .next (s.raise e)) :
    ∃ t, step s = .next t ∧ s.SameMachine t ∧ s.RecordOf t (exceptionCause e) (exceptionSub e) (exceptionAddr e) ∧
      causeCode t.cause = causeCode (exceptionCause e) :=
  ⟨_, h, s.sameMachine_raise e, s.recordOf_raise e, rfl⟩

/-- Settles O36: each row is the fault entry of the decoder's refusal or of the instruction's first failing bounds
check, and an instruction whose addresses are in bounds completes. -/
theorem exceptionsAreRaisedAsTabled : Obligations.ExceptionsAreRaisedAsTabled := by
  intro s hen hpc
  refine ⟨?unknownOpcode, ?truncated, ?reservedBits, ?read, ?write, ?addRead, ?addWrite, ?completes⟩
  case unknownOpcode => exact fun hdec => step_recorded (step_of_error hen hpc hdec)
  case truncated => exact fun hdec => step_recorded (step_of_error hen hpc hdec)
  case reservedBits => exact fun hdec => step_recorded (step_of_error hen hpc hdec)
  case read => exact fun _ _ dstReg hdec ha => step_recorded (step_of_raise hen hpc hdec (exec_read_of_le ha dstReg))
  case write => exact fun srcReg _ hdec ha => step_recorded (step_of_raise hen hpc hdec (exec_write_of_le ha srcReg))
  case addRead =>
    exact fun srcReg addr _ hdec hr => step_recorded (step_of_raise hen hpc hdec (exec_add_of_read_le hr srcReg addr))
  case addWrite =>
    exact fun srcReg _ _ hdec hr hw =>
      step_recorded (step_of_raise hen hpc hdec (exec_add_of_write_le hr hw srcReg))
  case completes => exact fun _ hdec hn => step_running_of_not_refused hen hpc hdec hn

end Sys2Proof.Machine

/-! PROOFS. The statements about reset (R180, R182), and about the inputs of a run (R34, R187). -/

namespace Sys2Proof.Machine

/-! ### The inputs of a run: the program and the parameters -/

/-- Settles O34, from what `Execute` and a step leave alone. -/
theorem programBufferIsNeverWritten : Obligations.ProgramBufferIsNeverWritten := by
  refine ⟨fun i s t h => ?exec, fun s t h => (step_inputs h).symm⟩
  case exec =>
    obtain ⟨_, hcfg, hprog, _⟩ := exec_pc_cfg_prog_trace h
    exact ⟨hprog, hcfg⟩

/-! ### Reset -/

/-- Of a machine, reset sees the parameters and the program alone (R182). -/
theorem State.applyReset_congr {s t : State} (hcfg : s.cfg = t.cfg) (hprog : s.prog = t.prog) :
    s.applyReset = t.applyReset := by
  rw [State.applyReset, State.applyReset, hcfg, hprog]

/-- Settles O1: each field of the reset state, and the two inputs reset is made from. -/
theorem resetStartsEveryRunFresh : Obligations.ResetStartsEveryRunFresh := by
  refine ⟨?fields, fun _ => rfl, fun _ _ => State.applyReset_congr⟩
  case fields =>
    rintro cfg prog _ rfl
    exact ⟨State.readReg_resetWith cfg prog, State.readMem_resetWith cfg prog, rfl, rfl, rfl, rfl, rfl, rfl, rfl, rfl,
      rfl⟩

end Sys2Proof.Machine
